-- ==== Sys2Proof/Config.lean ====
section
/-! DEFINITION. The implementation parameters of the Tape Machine (`00_scope.md` R6), each named once.

The spec leaves three parameters OPEN (`92_eei_decisions.md` D10): `IP_WIDTH`, `DEPTH_WIDTH` and `PLEN`. The model
carries them as the spec says, as unbounded natural numbers, so no constant stands here for them (log 9). No result
of an instruction is left open by the spec, so no free value stands here either. -/

namespace Sys2Proof.Config

/-- `TAPE_LEN` (R6, R21): the number of cells; cell indices are 0 to 65534. -/
abbrev tapeLen : Nat := 65535

/-- `CELL_WIDTH` (R6, R21): the bits of one cell, read as a signed two's complement number. -/
abbrev cellWidth : Nat := 16

/-- `PTR_WIDTH` (R6, R23): the bits of the pointer register, read as an unsigned cell index. -/
abbrev ptrWidth : Nat := 16

/-- `NEWLINE` (R6, R65, D16): the one byte that ends a comment. -/
abbrev newline : BitVec 8 := 0x0A

end Sys2Proof.Config
end

