-- ==== Sys2Proof/Word.lean ====
section
/-! DEFINITION. The three bit-vector types of the machine: what `10_state.md` and `20_memory.md` treat as bits. -/

namespace Sys2Proof

/-- One program element, `BYTE`, 8 bits, unsigned (R6, R40, R41). -/
abbrev Byte := BitVec 8

/-- The contents of one tape cell (R21). It is read as a signed number with `BitVec.toInt`, and only whole
(R44, R48). -/
abbrev Cell := BitVec Config.cellWidth

/-- The contents of the register `PTR` (R23): an unsigned cell index. The pattern 0xFFFF is never held (R24), which
is an invariant (`Machine.State.Inv`), not a fact of the type. -/
abbrev Ptr := BitVec Config.ptrWidth

end Sys2Proof
end

