-- ==== Sys2Proof/Syntax.lean ====
section
/-! DEFINITION. The instructions: the ten classes of `30_encoding.md` R62, one constructor for each mnemonic of
`opcode_table.json`. No instruction has an operand or an immediate (R63). -/

namespace Sys2Proof

/-- An instruction of the Tape Machine. The byte is the whole encoding (R60). -/
inductive Instr where
  /-- `INC`, `+` (R90). -/
  | inc
  /-- `DEC`, `-` (R91). -/
  | dec
  /-- `LEFT`, `<` (R101). -/
  | left
  /-- `RIGHT`, `>` (R102). -/
  | right
  /-- `OUT`, `.` (R110). -/
  | out
  /-- `IN`, `,` (R112). -/
  | inp
  /-- `LOOPS`, `[` (R121). -/
  | loops
  /-- `LOOPE`, `]` (R122). -/
  | loope
  /-- `CMT`, `#` (R140). -/
  | cmt
  /-- `NOP`, any other byte (R142). It carries the byte it was decoded from, one of 247, so that the 247 rows of the
  table stay apart and no bit of an encoding is dropped (log 8). -/
  | nop (b : Byte)
  deriving DecidableEq, Repr

end Sys2Proof
end

