-- ==== Sys2Proof/WellFormed.lean ====
section
/-! DEFINITION. Which terms of `Instr` stand for an instruction of the machine. The only check: a `NOP` carries none
of the nine named bytes. -/

namespace Sys2Proof

/-- The nine bytes that a `NOP` is not, in the order R142 lists them. -/
def namedBytes : List Byte := [0x2B, 0x2D, 0x3C, 0x3E, 0x2E, 0x2C, 0x5B, 0x5D, 0x23]

/-- R142: the encoding of a `NOP` is "any byte value other than" the nine named ones; the nine named instructions
have no field to check (R63). -/
def Instr.wellFormed : Instr → Bool
  | .inc => true
  | .dec => true
  | .left => true
  | .right => true
  | .out => true
  | .inp => true
  | .loops => true
  | .loope => true
  | .cmt => true
  | .nop b => !namedBytes.contains b

end Sys2Proof
end

