-- ==== Sys2Proof/Decode.lean ====
section
/-! DEFINITION. The opcode map of `30_encoding.md` R62 read both ways, and the layout of an opcode-table word. -/

namespace Sys2Proof

/-! The byte values of R62 (ASCII, D16). -/

def opInc : Byte := 0x2B
def opDec : Byte := 0x2D
def opLeft : Byte := 0x3C
def opRight : Byte := 0x3E
def opOut : Byte := 0x2E
def opIn : Byte := 0x2C
def opLoops : Byte := 0x5B
def opLoope : Byte := 0x5D
def opCmt : Byte := 0x23

/-- Decoding is a total function of the byte alone (R61): nine single values select a named instruction, every other
value selects `NOP` (R62, R64). -/
def decode (b : Byte) : Instr :=
  if b = opInc then .inc
  else if b = opDec then .dec
  else if b = opLeft then .left
  else if b = opRight then .right
  else if b = opOut then .out
  else if b = opIn then .inp
  else if b = opLoops then .loops
  else if b = opLoope then .loope
  else if b = opCmt then .cmt
  else .nop b

/-- Why a byte sequence gives no instruction. No byte value is refused (R64). -/
inductive DecodeError where
  /-- There is no byte to decode: the sequence is empty. -/
  | noByte
  deriving DecidableEq, Repr

/-- The instruction at the head of a byte sequence, with the bytes after it. Every instruction is exactly one byte
long (R60). -/
def decodeBytes : List Byte → Except DecodeError (Instr × List Byte)
  | [] => .error .noByte
  | b :: rest => .ok (decode b, rest)

/-- The byte-by-byte listing of a program (R66). -/
def disassemble (bytes : List Byte) : List Instr := bytes.map decode

/-- The byte of an instruction (R62). -/
def encode : Instr → Byte
  | .inc => opInc
  | .dec => opDec
  | .left => opLeft
  | .right => opRight
  | .out => opOut
  | .inp => opIn
  | .loops => opLoops
  | .loope => opLoope
  | .cmt => opCmt
  | .nop b => b

/-- The bytes of an instruction: one (R60). -/
def encodeBytes (i : Instr) : List Byte := [encode i]

/-- The program text of a list of instructions: packed, no gaps, no padding (R60, R68). -/
def assemble (is : List Instr) : List Byte := is.flatMap encodeBytes

/-- The `n` bytes of an opcode-table word `w`, the least significant byte first. -/
def wordBytes : Nat → Nat → List Byte
  | 0, _ => []
  | n + 1, w => BitVec.ofNat 8 w :: wordBytes n (w / 2 ^ 8)

/-- What the decoder reads from an instruction of the opcode table whose `nbits` bits are `w`: an instruction only
where the bytes are those of exactly one (R60). -/
def decodeTableWord (nbits w : Nat) : Option Instr :=
  match decodeBytes (wordBytes (nbits / 8) w) with
  | .ok (i, []) => some i
  | .ok (_, _ :: _) => none
  | .error _ => none

end Sys2Proof
end

