-- ==== Sys2Proof/Machine/State.lean ====
section
/-! DEFINITION. The machine's state as plain data, the reasons a step can stop, and the state after reset. -/

namespace Sys2Proof.Machine

/-- The run-state register `STATUS` (R27): the six values it can hold. Codes 6 and 7 are never held. The codes are
`Status.code`. -/
inductive Status where
  /-- Constructed with a non-empty program, `run` not yet started. -/
  | ready
  /-- `run` in progress; steps are enabled. -/
  | running
  /-- `IP` reached `PLEN`; normal end. -/
  | halted
  /-- Construction was given a zero-length program. -/
  | faultEmpty
  /-- An `IN` could not get a character. -/
  | faultInput
  /-- A bracket scan reached a program boundary. -/
  | faultMalformed
  deriving DecidableEq, Repr

/-- The machine's three errors (R150). Raising one is not a stop of the model: it gives a next state (R156). -/
inductive MachineError where
  /-- `EmptyProgramError`, raised by `create` only (R152). -/
  | emptyProgram
  /-- `InputError`, raised by `IN` only (R153). -/
  | input
  /-- `MalformedProgramError`, raised by `LOOPS` and `LOOPE` only (R154). -/
  | malformedProgram
  deriving DecidableEq, Repr

/-- What the caller of `create` or `run` gets (R151). -/
inductive CallerResult where
  /-- `create` yielded a machine, on which `run` has not started (R27, `READY`). -/
  | machine
  /-- `run` yielded `()`: the normal end. -/
  | returned
  /-- `create` or `run` yielded an error. -/
  | error (e : MachineError)
  deriving DecidableEq, Repr

/-- One answer of the input source to a request `In()` (R46). -/
inductive Answer where
  /-- `Char(c)`: the next character's code point. -/
  | char (c : Nat)
  /-- `Fail`: exhausted or unreadable. -/
  | fail
  deriving DecidableEq, Repr

/-- The tape: (index, cell) pairs in rising order of index, a cell that is not listed reads as 0 (R22). The canonical
form is `Memory.wf`. A cell is one 16-bit unit and never two bytes (R44, log 3). -/
abbrev Memory := List (Nat × Cell)

/-- Everything the spec gives one machine. -/
structure State where
  /-- `Prog`, whose length is `PLEN` (R29): fixed from `create` on (log 1). -/
  prog : List Byte
  /-- `IP`, a program index 0 to `PLEN` (R25). -/
  ip : Nat
  /-- `PTR`, the index of the active cell (R23). -/
  ptr : Ptr
  /-- `Tape` (R21). -/
  tape : Memory
  /-- `STATUS` (R27). -/
  status : Status
  /-- The input source's answers that have not been consumed, the next one first (R33, R46; log 5). -/
  input : List Answer
  /-- `OutTrace`, the values handed to the output sink, the oldest first (R33, R47). -/
  outTrace : List Cell
  deriving DecidableEq, Repr

/-- Why the machine model stops with a fault. Neither arises in a machine built by `create` and `run` (R50). -/
inductive Fault where
  /-- An instruction that reads or writes the active cell was performed while `PTR` held 0xFFFF, which names no cell
  (R24, R43). Raised by the operation `atActiveCell`. Safe: the spec says the pattern is never held (log 7). -/
  | noSuchCell (p : Ptr)
  /-- A fetch at an index that is not below `PLEN` (R41). Raised by `step`. Safe: a running machine has `IP < PLEN`
  (R81, log 7). -/
  | noProgramByte (ip : Nat)
  deriving DecidableEq, Repr

/-- Why the machine model gives no outcome. -/
inductive Refusal where
  /-- The instruction has no meaning in the model. Raised by no arm of `exec`. Safe. -/
  | notModelled (mnemonic : String)
  /-- A step was asked for while `STATUS` is not `RUNNING`: "no step exists" (R81, R159). Raised by `step`. Safe
  (log 7). -/
  | noStepEnabled (st : Status)
  /-- A `run` request while `STATUS` is not `READY` (R183, D14). Raised by `runRequest`. Safe. -/
  | runNotAccepted (st : Status)
  deriving DecidableEq, Repr

/-- What a step, a meaning or a `run` request answers. -/
abbrev Result := Host.Outcome State Fault Refusal

/-- The machine after reset. Reset is `create` (R180), and no program has been supplied, so it is the result of
`create` on zero bytes (R152, R34): `STATUS` is `FAULT_EMPTY`. The spec leaves the other elements undefined in that
state and allows the values of a successful `create` (R34), which stand here (DESIGN CHOICE, log 2). A program comes
from `create` and `run` (log 6). -/
def State.reset : State :=
  { prog := [], ip := 0, ptr := 0, tape := [], status := .faultEmpty, input := [], outTrace := [] }

end Sys2Proof.Machine
end

