-- ==== Sys2Proof/Machine/Ops.lean ====
section
/-! DEFINITION. The named operations over the tape, the registers and the streams; narrowing; raising an error; fetch
and the halt test. -/

namespace Sys2Proof.Machine

/-! ### Numbers -/

/-- `s16(v)`: any integer narrowed to a cell by two's complement wrap-around (`00_scope.md` section 5). -/
def s16 (v : Int) : Cell := BitVec.ofInt Config.cellWidth v

/-- The numeric code of a `STATUS` value, the field `STATUS[2:0]` (R27). -/
def Status.code : Status → BitVec 3
  | .ready => 0
  | .running => 1
  | .halted => 2
  | .faultEmpty => 3
  | .faultInput => 4
  | .faultMalformed => 5

/-! ### The tape -/

/-- What a cell that is not listed holds: zero (R22). -/
def Memory.unlisted : Cell := 0

/-- `Tape[k]` (R42). -/
def Memory.read : Memory → Nat → Cell
  | [], _ => Memory.unlisted
  | (a, v) :: m, k => if a = k then v else Memory.read m k

/-- `Tape[k] <- v` (R42), in canonical form: a cell set to what an unlisted cell holds is not listed. -/
def Memory.write : Memory → Nat → Cell → Memory
  | [], k, v => if v = Memory.unlisted then [] else [(k, v)]
  | (a, w) :: m, k, v =>
    if k < a then
      if v = Memory.unlisted then (a, w) :: m else (k, v) :: (a, w) :: m
    else if k = a then
      if v = Memory.unlisted then m else (k, v) :: m
    else (a, w) :: Memory.write m k v

/-- The pairs have rising indices from `lo` on, all of them below `TAPE_LEN`, and none holds what an unlisted cell
holds. -/
def Memory.wfFrom : Nat → Memory → Bool
  | _, [] => true
  | lo, (a, v) :: m =>
    decide (lo ≤ a) && decide (a < Config.tapeLen) && v != Memory.unlisted && Memory.wfFrom (a + 1) m

/-- The canonical form of the tape. -/
def Memory.wf (m : Memory) : Bool := Memory.wfFrom 0 m

/-! ### Registers and streams -/

/-- `IP <- i + 1` (R83). -/
def State.advance (s : State) : State := { s with ip := s.ip + 1 }

/-- `IP <- t`. -/
def State.jump (s : State) (t : Nat) : State := { s with ip := t }

/-- `PTR <- p`. -/
def State.setPtr (s : State) (p : Ptr) : State := { s with ptr := p }

/-- `Tape[k] <- v`. -/
def State.setCell (s : State) (k : Nat) (v : Cell) : State := { s with tape := s.tape.write k v }

/-- `STATUS <- st`. -/
def State.setStatus (s : State) (st : Status) : State := { s with status := st }

/-- `Out(v)`: `OutTrace <- OutTrace ++ [v]` (R47, R110). It always succeeds. -/
def State.emit (s : State) (v : Cell) : State := { s with outTrace := s.outTrace ++ [v] }

/-- The source's answers that are left are `as`. -/
def State.setInput (s : State) (as : List Answer) : State := { s with input := as }

/-- `(PTR - 1) mod TAPE_LEN` (R100). -/
def ptrLeft (p : Ptr) : Ptr := BitVec.ofInt Config.ptrWidth (((p.toNat : Int) - 1) % (Config.tapeLen : Int))

/-- `(PTR + 1) mod TAPE_LEN` (R100). -/
def ptrRight (p : Ptr) : Ptr := BitVec.ofInt Config.ptrWidth (((p.toNat : Int) + 1) % (Config.tapeLen : Int))

/-! ### Taking an exception -/

/-- The `STATUS` value of an error (R150, R155). -/
def MachineError.status : MachineError → Status
  | .emptyProgram => .faultEmpty
  | .input => .faultInput
  | .malformedProgram => .faultMalformed

/-- `raise E` (R156, R157): `STATUS` takes the code of `E` and nothing else is written; no state is saved anywhere,
no mode changes, control goes nowhere. There is no return from an error (R159), so no operation undoes this one. -/
def raise (e : MachineError) (s : State) : State := s.setStatus e.status

/-! ### The dispatch cycle -/

/-- `Fetch(IP)` (R82): the byte at `IP`, where there is one. -/
def fetch (s : State) : Option Byte := s.prog[s.ip]?

/-- R84 on a state: a run that goes on and has reached `PLEN`, the program's length (R29), halts. A step that raised an error has
left `RUNNING` already. -/
def haltIfDone (s : State) : State :=
  if s.status = .running ∧ s.ip = s.prog.length then s.setStatus .halted else s

/-- R84 on the outcome of an instruction: the halt test is part of the same step. -/
def haltTest : Result → Result
  | .next s => .next (haltIfDone s)
  | .fault f => .fault f
  | .refused r => .refused r

/-- The program with the byte `b` at index `k`: the byte there is replaced, and a shorter program is first filled up
with zero bytes. No instruction does this (R55); it stands for the program's load in `State.withFetchWord`. -/
def placeByte (prog : List Byte) (k : Nat) (b : Byte) : List Byte :=
  prog.take k ++ List.replicate (k - prog.length) 0 ++ b :: prog.drop (k + 1)

end Sys2Proof.Machine
end

