-- ==== Sys2Proof/Machine/Operands.lean ====
section
/-! DEFINITION. The operand forms. Every operand is implicit (`30_encoding.md` R63), and the one addressing mode into
the tape is register-indirect through `PTR`, with no offset, no scaling and no change of `PTR` (`20_memory.md`
R42). -/

namespace Sys2Proof.Machine

/-- The effective address of every tape access (R42). -/
def effectiveAddress (s : State) : Nat := s.ptr.toNat

/-- What `body` does with the index of the active cell. Every pattern of `PTR` the machine ever holds names a cell
(R24, R50); the one that does not, 0xFFFF, faults (log 7). -/
def atActiveCell (s : State) (body : Nat → Result) : Result :=
  if effectiveAddress s < Config.tapeLen then body (effectiveAddress s) else .fault (.noSuchCell s.ptr)

/-- `INC` and `DEC`'s form: the active cell is read and then written within one step (R48), and `IP` advances. -/
def updateActiveCell (f : Int → Int) (s : State) : Result :=
  atActiveCell s fun k => .next (s.setCell k (s16 (f (s.tape.read k).toInt))).advance

end Sys2Proof.Machine
end

