-- ==== Sys2Proof/Machine/CellArithmetic.lean ====
section
/-! DEFINITION. `INC` and `DEC` (`41_cell_arithmetic.md`). -/

namespace Sys2Proof.Machine

/-- `INC` (R90): `Tape[PTR] <- s16(v + 1)`, `IP <- i + 1`. Overflow is silent (R92). -/
def execInc (s : State) : Result := updateActiveCell (fun v => v + 1) s

/-- `DEC` (R91): `Tape[PTR] <- s16(v - 1)`, `IP <- i + 1`. -/
def execDec (s : State) : Result := updateActiveCell (fun v => v - 1) s

end Sys2Proof.Machine
end

