-- ==== Sys2Proof/Machine/CommentNop.lean ====
section
/-! DEFINITION. `CMT` and `NOP` (`45_comment_noop.md`). -/

namespace Sys2Proof.Machine

/-- The loop of `CMT` (R140): the bytes still to read and the index `j` of the first of them. The scan stops on the
newline byte itself (D4), or at `PLEN` where the bytes run out (R141). -/
def skipLine : List Byte → Nat → Nat
  | [], j => j
  | b :: rest, j => if b = Config.newline then j else skipLine rest (j + 1)

/-- `CMT` (R140): `IP` goes to the next newline byte after `i`, or to `PLEN` if there is none. -/
def execCmt (s : State) : Result := .next (s.jump (skipLine (s.prog.drop (s.ip + 1)) (s.ip + 1)))

/-- `NOP` (R142): all 247 bytes alike, `IP <- i + 1` and no other effect. -/
def execNop (s : State) : Result := .next s.advance

end Sys2Proof.Machine
end

