-- ==== Sys2Proof/Machine/Io.lean ====
section
/-! DEFINITION. `OUT` and `IN` (`43_io.md`). -/

namespace Sys2Proof.Machine

/-- `OUT` (R110): the active cell's value is appended to the output unchanged, negative values included (R111). -/
def execOut (s : State) : Result :=
  atActiveCell s fun k => .next (s.emit (s.tape.read k)).advance

/-- `IN` (R112), by the source's next answer. `Char(c)` is consumed and `s16(c)` is stored (R113); the old value of
the cell is not read. `Fail` raises `InputError` and is not consumed (R114, R157). With no answer yet, the step is not
complete and has changed nothing: the machine stays in it, `STATUS` stays `RUNNING` (R115; log 4). -/
def execInp (s : State) : Result :=
  match s.input with
  | [] => .next s
  | .fail :: _ => .next (raise .input s)
  | .char c :: rest => atActiveCell s fun k => .next ((s.setInput rest).setCell k (s16 c)).advance

end Sys2Proof.Machine
end

