-- ==== Sys2Proof/Machine/Flags.lean ====
section
/-! DEFINITION. There are no status flags, condition codes or predicate registers (`10_state.md` R30): no instruction
writes a flag. The one condition the machine evaluates is the test `LOOPS` makes on the active cell. -/

namespace Sys2Proof.Machine

/-- The condition of `LOOPS`: equality with 0 of the whole 16-bit value (R92, R121). -/
def isZero (v : Cell) : Bool := v.toInt == 0

end Sys2Proof.Machine
end

