-- ==== Sys2Proof/Machine/Loops.lean ====
section
/-! DEFINITION. The bracket-matching engine, `LOOPS` and `LOOPE` (`44_loops.md`). A target is found by scanning, every
time a bracket is performed (R120). -/

namespace Sys2Proof.Machine

/-- The depth after a scan that counts `opens` upward and `closes` downward has passed the byte `b`; every other byte
leaves it unchanged, `#` and newline included (R131). -/
def nextDepth (opens closes : Byte) (b : Byte) (depth : Nat) : Nat :=
  if b = opens then depth + 1 else if b = closes then depth - 1 else depth

/-- The loop of `MatchFwd` (R125): the bytes still to read, the index `j` of the first of them, and `depth`. The bytes
run out exactly when `j >= PLEN` (R127). -/
def scanFwd : List Byte → Nat → Nat → Option Nat
  | [], _, _ => none
  | b :: rest, j, depth =>
    let depth' := nextDepth opLoops opLoope b depth
    if depth' = 0 then some j else scanFwd rest (j + 1) depth'

/-- `MatchFwd(i)` (R125): the scan starts at the byte after the `[`, at depth 1. -/
def matchFwd (prog : List Byte) (i : Nat) : Option Nat := scanFwd (prog.drop (i + 1)) (i + 1) 1

/-- The loop of `MatchBwd` (R128): the bytes still to read, from index `j` down to 0, and `depth`. The index of the
byte being read is the number of bytes after it in the list, and they run out exactly when `j < 0` (R130). -/
def scanBwd : List Byte → Nat → Option Nat
  | [], _ => none
  | b :: rest, depth =>
    let depth' := nextDepth opLoope opLoops b depth
    if depth' = 0 then some rest.length else scanBwd rest depth'

/-- `MatchBwd(i)` (R128): the scan starts at the byte before the `]`, at depth 1. -/
def matchBwd (prog : List Byte) (i : Nat) : Option Nat := scanBwd (prog.take i).reverse 1

/-- `LOOPS` (R121): a cell that is not zero enters the body, with no scan (R135); a zero cell goes just past the
partner, or raises `MalformedProgramError`, leaving `IP` on the bracket (R134). -/
def execLoops (s : State) : Result :=
  atActiveCell s fun k =>
    if isZero (s.tape.read k) then
      match matchFwd s.prog s.ip with
      | none => .next (raise .malformedProgram s)
      | some m => .next (s.jump (m + 1))
    else .next s.advance

/-- `LOOPE` (R122): always scans, and goes onto the matching `[` itself (C7), or raises `MalformedProgramError`. It
does not read the tape. -/
def execLoope (s : State) : Result :=
  match matchBwd s.prog s.ip with
  | none => .next (raise .malformedProgram s)
  | some m => .next (s.jump m)

end Sys2Proof.Machine
end

