-- ==== Sys2Proof/Machine/Pointer.lean ====
section
/-! DEFINITION. `LEFT` and `RIGHT` (`42_pointer.md`). Neither reads nor writes a cell (R100). -/

namespace Sys2Proof.Machine

/-- `LEFT` (R101): `PTR <- (PTR - 1) mod 65535`, `IP <- i + 1`. -/
def execLeft (s : State) : Result := .next (s.setPtr (ptrLeft s.ptr)).advance

/-- `RIGHT` (R102): `PTR <- (PTR + 1) mod 65535`, `IP <- i + 1`. -/
def execRight (s : State) : Result := .next (s.setPtr (ptrRight s.ptr)).advance

end Sys2Proof.Machine
end

