-- ==== Sys2Proof/Machine/Dispatch.lean ====
section
/-! DEFINITION. Dispatch: one arm for each constructor of `Instr`. -/

namespace Sys2Proof.Machine

/-- The effect of an instruction at index `IP` (R80). The halt test is the step's (R84). -/
def exec (i : Instr) (s : State) : Host.Outcome State Fault Refusal :=
  match i with
  | .inc => Sys2Proof.Machine.execInc s
  | .dec => Sys2Proof.Machine.execDec s
  | .left => Sys2Proof.Machine.execLeft s
  | .right => Sys2Proof.Machine.execRight s
  | .out => Sys2Proof.Machine.execOut s
  | .inp => Sys2Proof.Machine.execInp s
  | .loops => Sys2Proof.Machine.execLoops s
  | .loope => Sys2Proof.Machine.execLoope s
  | .cmt => Sys2Proof.Machine.execCmt s
  | .nop _ => Sys2Proof.Machine.execNop s

end Sys2Proof.Machine
end

