-- ==== Sys2Proof/Machine/Step.lean ====
section
/-! DEFINITION. One step of the machine (`40_dispatch.md` R80), and the state in which a given word is the next
instruction. -/

namespace Sys2Proof.Machine

/-- One pass of the dispatch loop (R80): enabled exactly when `STATUS` is `RUNNING` (R81), it fetches the byte at `IP`
(R82), performs it, and makes the halt test (R84). Where no step exists the answer is a refusal (log 7). -/
def step (s : State) : Host.Outcome State Fault Refusal :=
  if s.status = .running then
    match fetch s with
    | some b => haltTest (exec (decode b) s)
    | none => .fault (.noProgramByte s.ip)
  else .refused (.noStepEnabled s.status)

/-- The state in which the next step performs the instruction whose `nbits` bits are `w`: its byte stands at `IP` and
the machine is running. It stands for `create` and `run` (R180, R182; log 6). -/
def State.withFetchWord (s : State) (nbits w : Nat) : State :=
  { s with
    prog := placeByte s.prog s.ip (BitVec.ofNat 8 (w % 2 ^ nbits))
    status := .running }

end Sys2Proof.Machine
end

