-- ==== Sys2Proof/Machine/Requests.lean ====
section
/-! DEFINITION. What the host does to the machine and reads of it (`70_reset_and_hazards.md` R180 to R186): the two
operations `create` and `run`, the answers of the input source, and the result. None of these is a step. -/

namespace Sys2Proof.Machine

/-- `create(bytes)` (R180), the reset and load. It takes effect whatever the previous state was, so it has no state
argument. It checks nothing but the length: no bytes raise `EmptyProgramError` (R152), and the elements the spec leaves
undefined then are those of a fresh machine (log 2). -/
def create (bytes : List Byte) : State :=
  let fresh : State :=
    { prog := bytes, ip := 0, ptr := 0, tape := [], status := .ready, input := [], outTrace := [] }
  if bytes.length = 0 then raise .emptyProgram fresh else fresh

/-- A request `run(source, sink)` (R182): in `READY` it binds the source, here by the answers it has given so far, sets
`IP` to 0 and enables steps; the tape and the pointer are not touched. In any other status it is refused (R183). -/
def runRequest (answers : List Answer) (s : State) : Result :=
  if s.status = .ready then .next (((s.setInput answers).jump 0).setStatus .running)
  else .refused (.runNotAccepted s.status)

/-- The source gives further answers, after those it has given (R46, R115, R186). -/
def supply (answers : List Answer) (s : State) : State := s.setInput (s.input ++ answers)

/-- What `create` or `run` has given the caller, read from `STATUS` (R27, R151): a machine in `READY`, nothing while `run`
is in progress, `()` or an error once `STATUS` has left `RUNNING`. -/
def callerResult (s : State) : Option CallerResult :=
  match s.status with
  | .ready => some .machine
  | .running => none
  | .halted => some .returned
  | .faultEmpty => some (.error .emptyProgram)
  | .faultInput => some (.error .input)
  | .faultMalformed => some (.error .malformedProgram)

end Sys2Proof.Machine
end

