-- ==== Sys2Proof/Safety.lean ====
section
/-! DEFINITION. What holds of every machine at a step boundary, in the terms the statements use. -/

namespace Sys2Proof.Machine

/-- What `STATUS` says of the other elements: the transitions of R28 and the frozen states of R84, R155 and R157. -/
abbrev State.StatusInv (s : State) : Prop :=
  (s.status = .ready → s.ip = 0 ∧ s.ptr = 0 ∧ s.tape = [] ∧ s.outTrace = []) ∧
  (s.status = .running → s.ip < s.prog.length) ∧
  (s.status = .halted → s.ip = s.prog.length) ∧
  (s.status = .faultEmpty ↔ s.prog = []) ∧
  (s.status = .faultInput → s.prog[s.ip]? = some opIn) ∧
  (s.status = .faultMalformed → s.prog[s.ip]? = some opLoops ∨ s.prog[s.ip]? = some opLoope)

/-- The invariant of a step boundary: the tape is canonical, `PTR` names a cell (R24), `IP` is an index 0 to `PLEN`
(R25), and `STATUS` agrees with the rest. -/
abbrev State.Inv (s : State) : Prop :=
  s.tape.wf = true ∧ s.ptr.toNat < Config.tapeLen ∧ s.ip ≤ s.prog.length ∧ s.StatusInv

/-- No step stops the model at `s`: it gives a next state. -/
abbrev State.CanStep (s : State) : Prop := ∃ t, step s = .next t

end Sys2Proof.Machine
end

