-- ==== Sys2Proof/Certificates/Slice0/Obligations.lean ====
section
/-! DEFINITION. The statements for the provers, in this order: encoding, the step, the ten instructions, the bracket
engine, errors, the whole machine, the tape, the host's requests. `v` stands for the active cell's value throughout.
Where a statement rests on a choice the spec marks as its own (`92_eei_decisions.md`), on a rule the spec marks as
derived, or on a choice of this model (`notes/assumptions/`), its docstring says so. -/

namespace Sys2Proof.Terms

/-- `open(a, b)` of R126: how many of the bytes `Prog[a]` to `Prog[b]` are `[`, zero if `a > b`. -/
def opens (prog : List Byte) (a b : Nat) : Nat := ((prog.take (b + 1)).drop a).count 0x5B

/-- `close(a, b)` of R126: how many of the bytes `Prog[a]` to `Prog[b]` are `]`, zero if `a > b`. -/
def closes (prog : List Byte) (a b : Nat) : Nat := ((prog.take (b + 1)).drop a).count 0x5D

/-- R126: `m` is the least index with `i < m < PLEN` and `close(i+1, m) = open(i+1, m) + 1`. -/
def FwdPartner (prog : List Byte) (i m : Nat) : Prop :=
  (i < m ∧ m < prog.length ∧ closes prog (i + 1) m = opens prog (i + 1) m + 1) ∧
  ∀ k, i < k → k < m → closes prog (i + 1) k ≠ opens prog (i + 1) k + 1

/-- R129: `m` is the greatest index with `0 <= m < i` and `open(m, i-1) = close(m, i-1) + 1`. -/
def BwdPartner (prog : List Byte) (i m : Nat) : Prop :=
  (m < i ∧ opens prog m (i - 1) = closes prog m (i - 1) + 1) ∧
  ∀ k, m < k → k < i → opens prog k (i - 1) ≠ closes prog k (i - 1) + 1

/-- Two bytes are the same to a scan: both are `[`, both are `]`, or neither is a bracket (R131). -/
def SameToScan (b c : Byte) : Prop := (b = 0x5B ↔ c = 0x5B) ∧ (b = 0x5D ↔ c = 0x5D)

end Sys2Proof.Terms

open Sys2Proof Sys2Proof.Machine Sys2Proof.Terms

/-! ### Encoding -/

/-- R62: the byte of each named instruction, and the ranges of the `NOP` bytes. -/
def Obligations.EveryByteDecodesToItsClass : Prop :=
  decode 0x2B = .inc ∧ decode 0x2D = .dec ∧ decode 0x3C = .left ∧ decode 0x3E = .right ∧ decode 0x2E = .out ∧
  decode 0x2C = .inp ∧ decode 0x5B = .loops ∧ decode 0x5D = .loope ∧ decode 0x23 = .cmt ∧
  ∀ b : Byte, decode b = .nop b ↔
    b.toNat ≤ 0x22 ∨ (0x24 ≤ b.toNat ∧ b.toNat ≤ 0x2A) ∨ (0x2F ≤ b.toNat ∧ b.toNat ≤ 0x3B) ∨ b.toNat = 0x3D ∨
    (0x3F ≤ b.toNat ∧ b.toNat ≤ 0x5A) ∨ b.toNat = 0x5C ∨ 0x5E ≤ b.toNat

/-- R60, R61: the byte of a well-formed instruction decodes to that instruction, and it is the whole of it. -/
def Obligations.EncodedInstructionDecodesBack : Prop :=
  ∀ i : Instr, i.wellFormed = true →
    decode (encode i) = i ∧ (encodeBytes i).length = 1 ∧ decodeBytes (encodeBytes i) = .ok (i, [])

/-- R61, R64: every byte decodes to a well-formed instruction, which encodes to that byte; and the byte's row of the
opcode table (R70) gives it. -/
def Obligations.DecodedByteEncodesBack : Prop :=
  ∀ b : Byte, (decode b).wellFormed = true ∧ encode (decode b) = b ∧ decodeTableWord 8 b.toNat = some (decode b)

/-- R60, R66, R68: a program text is its instructions, one a byte, packed with no gaps. Assembling well-formed
instructions and listing them again gives them back, the other way round gives the bytes back, and the instruction at
index `k` is the byte at index `k`. -/
def Obligations.ProgramTextIsItsInstructions : Prop :=
  (∀ is : List Instr, (∀ i ∈ is, i.wellFormed = true) →
    disassemble (assemble is) = is ∧ (assemble is).length = is.length ∧
    ∀ k : Nat, (assemble is)[k]?.map decode = is[k]?) ∧
  ∀ bytes : List Byte, assemble (disassemble bytes) = bytes

/-! ### The step -/

/-- R80, R82, R84: where the byte at `IP` is that of a well-formed instruction, a step of a running machine is `exec` of
that instruction followed by the halt test, which only ever sets `STATUS` to `HALTED`, exactly where the instruction
left the machine running with `IP = PLEN`. -/
def Obligations.StepRunsTheDecodedInstruction : Prop :=
  (∀ (s : State) (i : Instr), s.status = .running → i.wellFormed = true → s.prog[s.ip]? = some (encode i) →
    step s = haltTest (exec i s)) ∧
  (∀ t : State, haltTest (.next t) =
    .next (if t.status = .running ∧ t.ip = t.prog.length then { t with status := .halted } else t)) ∧
  (∀ f : Fault, haltTest (.fault f) = .fault f) ∧
  ∀ r : Refusal, haltTest (.refused r) = .refused r

/-- R81: a step is enabled exactly when `STATUS` is `RUNNING`; elsewhere no step exists, which the model answers with a
refusal (the model's choice, log 7). -/
def Obligations.StepEnabledExactlyWhenRunning : Prop :=
  ∀ s : State,
    (s.status ≠ .running → step s = .refused (.noStepEnabled s.status)) ∧
    (s.status = .running → ∀ r, step s ≠ .refused r)

/-- The model's own interface (log 6): after reset, placing a table word is `create` of that one byte followed by `run`;
and from any state, the next step runs the word's instruction. -/
def Obligations.FetchWordRunsItsInstruction : Prop :=
  ∀ (s : State) (b : Byte),
    runRequest [] (create [b]) = .next (State.reset.withFetchWord 8 b.toNat) ∧
    step (s.withFetchWord 8 b.toNat) = haltTest (exec (decode b) (s.withFetchWord 8 b.toNat)) ∧
    (s.withFetchWord 8 b.toNat).ip = s.ip ∧ (s.withFetchWord 8 b.toNat).ptr = s.ptr ∧
    (s.withFetchWord 8 b.toNat).tape = s.tape ∧ (s.withFetchWord 8 b.toNat).input = s.input ∧
    (s.withFetchWord 8 b.toNat).outTrace = s.outTrace

/-! ### The instructions -/

/-- R90. The tape is canonical and `PTR` names a cell in every state of the machine (`StepKeepsInvariant`). -/
def Obligations.IncAddsOneToTheActiveCell : Prop :=
  decode 0x2B = .inc ∧
  ∀ s : State, s.tape.wf = true → s.ptr.toNat < 65535 →
    ∃ t, exec .inc s = .next t ∧
      (t.tape.read s.ptr.toNat).toInt =
        (if (s.tape.read s.ptr.toNat).toInt = 32767 then -32768 else (s.tape.read s.ptr.toNat).toInt + 1) ∧
      (∀ k, k ≠ s.ptr.toNat → t.tape.read k = s.tape.read k) ∧
      t.ip = s.ip + 1 ∧
      t.ptr = s.ptr ∧ t.outTrace = s.outTrace ∧ t.input = s.input ∧ t.status = s.status ∧ t.prog = s.prog

/-- R91. -/
def Obligations.DecSubtractsOneFromTheActiveCell : Prop :=
  decode 0x2D = .dec ∧
  ∀ s : State, s.tape.wf = true → s.ptr.toNat < 65535 →
    ∃ t, exec .dec s = .next t ∧
      (t.tape.read s.ptr.toNat).toInt =
        (if (s.tape.read s.ptr.toNat).toInt = -32768 then 32767 else (s.tape.read s.ptr.toNat).toInt - 1) ∧
      (∀ k, k ≠ s.ptr.toNat → t.tape.read k = s.tape.read k) ∧
      t.ip = s.ip + 1 ∧
      t.ptr = s.ptr ∧ t.outTrace = s.outTrace ∧ t.input = s.input ∧ t.status = s.status ∧ t.prog = s.prog

/-- R101 with R100 and the spec's own decision D1: left of cell 0 is cell 65534. Nothing but `PTR` and `IP` changes. -/
def Obligations.LeftMovesThePointerDown : Prop :=
  ∀ s : State, s.ptr.toNat < 65535 →
    ∃ p : Ptr, exec .left s = .next { s with ptr := p, ip := s.ip + 1 } ∧
      p.toNat = if s.ptr.toNat = 0 then 65534 else s.ptr.toNat - 1

/-- R102 with R100 and the spec's own decision D1: right of cell 65534 is cell 0. Nothing but `PTR` and `IP` changes. -/
def Obligations.RightMovesThePointerUp : Prop :=
  ∀ s : State, s.ptr.toNat < 65535 →
    ∃ p : Ptr, exec .right s = .next { s with ptr := p, ip := s.ip + 1 } ∧
      p.toNat = if s.ptr.toNat = 65534 then 0 else s.ptr.toNat + 1

/-- R110: one value, the active cell's, is appended, and nothing else changes but `IP`; no other instruction emits
anything. -/
def Obligations.OutEmitsTheActiveCell : Prop :=
  decode 0x2E = .out ∧
  (∀ s : State, s.ptr.toNat < 65535 →
    exec .out s =
      .next { s with outTrace := s.outTrace ++ [s.tape.read s.ptr.toNat], ip := s.ip + 1 }) ∧
  ∀ (s t : State) (i : Instr), i ≠ .out → exec i s = .next t → t.outTrace = s.outTrace

/-- R112 where the source answers with a character, and the narrowing of R113, the spec's own decision D6: the cell
holds `c` reduced modulo 65536 into -32768 to 32767, the answer is consumed, no other cell changes; no other
instruction consumes an answer. -/
def Obligations.InStoresTheCodePoint : Prop :=
  (∀ (s : State) (c : Nat) (rest : List Answer), s.tape.wf = true → s.ptr.toNat < 65535 →
    s.input = .char c :: rest →
    ∃ t, exec .inp s = .next t ∧
      (t.tape.read s.ptr.toNat).toInt = ((c : Int) + 32768) % 65536 - 32768 ∧
      (∀ k, k ≠ s.ptr.toNat → t.tape.read k = s.tape.read k) ∧
      t.input = rest ∧ t.ip = s.ip + 1 ∧
      t.ptr = s.ptr ∧ t.outTrace = s.outTrace ∧ t.status = s.status ∧ t.prog = s.prog) ∧
  ∀ (s t : State) (i : Instr), i ≠ .inp → exec i s = .next t → t.input = s.input

/-- R114, and with it the spec's own decision D7: a failing `IN` sets `STATUS` to `FAULT_INPUT` and changes nothing else;
`IP` still indexes it and the source's answer is not consumed. Where this instruction traps. -/
def Obligations.InFailureRaisesInputError : Prop :=
  ∀ (s : State) (rest : List Answer), s.input = .fail :: rest →
    exec .inp s = .next { s with status := .faultInput }

/-- R115: with no answer from the source the step is not complete and has changed nothing. That the model shows this as
a step to the same state is the model's choice (log 4). Where this instruction waits; answers given later are the ones
it then gets, and giving them changes nothing else. -/
def Obligations.InWaitsForAnAnswer : Prop :=
  ∀ s : State, s.input = [] →
    exec .inp s = .next s ∧
    (s.status = .running → s.prog[s.ip]? = some 0x2C → step s = .next s) ∧
    ∀ as, supply as s = { s with input := as }

/-- R121: the three cases of `LOOPS`. -/
def Obligations.LoopsEntersSkipsOrFaults : Prop :=
  decode 0x5B = .loops ∧
  ∀ s : State, s.ptr.toNat < 65535 →
    ((s.tape.read s.ptr.toNat).toInt ≠ 0 → exec .loops s = .next { s with ip := s.ip + 1 }) ∧
    ((s.tape.read s.ptr.toNat).toInt = 0 → ∀ m, matchFwd s.prog s.ip = some m →
      exec .loops s = .next { s with ip := m + 1 }) ∧
    ((s.tape.read s.ptr.toNat).toInt = 0 → matchFwd s.prog s.ip = none →
      exec .loops s = .next { s with status := .faultMalformed })

/-- R122: the two cases of `LOOPE`. It goes onto the matching `[`, whatever the tape and the pointer hold. -/
def Obligations.LoopeReturnsToItsPartnerOrFaults : Prop :=
  decode 0x5D = .loope ∧
  ∀ s : State,
    (∀ m, matchBwd s.prog s.ip = some m → exec .loope s = .next { s with ip := m }) ∧
    (matchBwd s.prog s.ip = none → exec .loope s = .next { s with status := .faultMalformed })

/-- R140 and the spec's own decision D4: `CMT` goes to the first newline byte after it, or to `PLEN`, and changes nothing
but `IP`. -/
def Obligations.CmtSkipsToTheNextNewline : Prop :=
  ∀ s : State, s.ip < s.prog.length →
    ∃ j, exec .cmt s = .next { s with ip := j } ∧
      s.ip < j ∧ j ≤ s.prog.length ∧
      (j < s.prog.length → s.prog[j]? = some 0x0A) ∧
      ∀ k, s.ip < k → k < j → s.prog[k]? ≠ some 0x0A

/-- R141: a comment on the last line ends the run. -/
def Obligations.CommentOnTheLastLineHalts : Prop :=
  ∀ s : State, s.status = .running → s.prog[s.ip]? = some 0x23 →
    (∀ k, s.ip < k → s.prog[k]? ≠ some 0x0A) →
    step s = .next { s with ip := s.prog.length, status := .halted }

/-- R142: every byte but the nine named ones is a `NOP`, and a `NOP` only advances `IP`. -/
def Obligations.NopOnlyAdvances : Prop :=
  (∀ b : Byte, b ≠ 0x2B → b ≠ 0x2D → b ≠ 0x3C → b ≠ 0x3E → b ≠ 0x2E → b ≠ 0x2C → b ≠ 0x5B → b ≠ 0x5D → b ≠ 0x23 →
    decode b = .nop b) ∧
  ∀ (s : State) (b : Byte), exec (.nop b) s = .next { s with ip := s.ip + 1 }

/-- What the model does outside the states of R24 and R81, which it must answer and the spec excludes (the model's choice,
log 7): an access through the pattern 0xFFFF of `PTR` faults, pointer movement follows the formula of R100 on it, and a
fetch at or beyond `PLEN` faults. -/
def Obligations.ExcludedPatternsStopByName : Prop :=
  (∀ s : State, s.ptr = 0xFFFF →
    (∀ i : Instr, (i = .inc ∨ i = .dec ∨ i = .out ∨ i = .loops) → exec i s = .fault (.noSuchCell 0xFFFF)) ∧
    (∀ c rest, s.input = .char c :: rest → exec .inp s = .fault (.noSuchCell 0xFFFF)) ∧
    exec .left s = .next { s with ptr := 0xFFFE, ip := s.ip + 1 } ∧
    exec .right s = .next { s with ptr := 1, ip := s.ip + 1 }) ∧
  ∀ s : State, s.status = .running → s.prog.length ≤ s.ip → step s = .fault (.noProgramByte s.ip)

/-! ### The bracket-matching engine -/

/-- R126, which the spec derives from R125: `MatchFwd(i)` in closed form, with what the spec says of its result. -/
def Obligations.ForwardScanClosedForm : Prop :=
  ∀ (prog : List Byte) (i : Nat), i < prog.length →
    (∀ m, matchFwd prog i = some m ↔ FwdPartner prog i m) ∧
    ∀ m, matchFwd prog i = some m →
      prog[m]? = some 0x5D ∧ ∀ k, i < k → k < m → closes prog (i + 1) k ≤ opens prog (i + 1) k

/-- R129, which the spec derives from R128: `MatchBwd(i)` in closed form, with what the spec says of its result. -/
def Obligations.BackwardScanClosedForm : Prop :=
  ∀ (prog : List Byte) (i : Nat), i < prog.length →
    (∀ m, matchBwd prog i = some m ↔ BwdPartner prog i m) ∧
    ∀ m, matchBwd prog i = some m →
      prog[m]? = some 0x5B ∧ ∀ k, m < k → k < i → opens prog k (i - 1) ≤ closes prog k (i - 1)

/-- The clauses of R127 and R130 that the spec derives: a scan finds no partner exactly when no prefix of the bytes after
it has more `]` than `[`, and no suffix of the bytes before it more `[` than `]`. -/
def Obligations.ScansFailExactlyWhenUnbalanced : Prop :=
  ∀ (prog : List Byte) (i : Nat), i < prog.length →
    (matchFwd prog i = none ↔
      ∀ k, i < k → k < prog.length → closes prog (i + 1) k ≤ opens prog (i + 1) k) ∧
    (matchBwd prog i = none ↔
      ∀ k, k < i → opens prog k (i - 1) ≤ closes prog k (i - 1))

/-- R136, which the spec derives: the two scans agree. -/
def Obligations.ScansAgreeOnPartners : Prop :=
  ∀ (prog : List Byte) (i m : Nat),
    (prog[i]? = some 0x5B → matchFwd prog i = some m → matchBwd prog m = some i) ∧
    (prog[i]? = some 0x5D → matchBwd prog i = some m → matchFwd prog m = some i)

/-- R131, the spec's own decision D3: the scans are comment-blind. Programs of one length whose brackets stand at the
same indices have the same partners, whatever their other bytes are, `#` and newline included. -/
def Obligations.ScansAreCommentBlind : Prop :=
  ∀ prog prog' : List Byte, List.Forall₂ SameToScan prog prog' →
    ∀ i, matchFwd prog i = matchFwd prog' i ∧ matchBwd prog i = matchBwd prog' i

/-- R122 with R121 and R136: a `]` goes onto its `[`, which with a zero cell goes just past that same `]`. Two steps that
change nothing but `IP`, and `STATUS` if the `]` was the last byte. -/
def Obligations.LoopEndThenZeroTestLeavesTheLoop : Prop :=
  ∀ (s : State) (m : Nat), s.status = .running → s.ptr.toNat < 65535 → s.prog[s.ip]? = some 0x5D →
    matchBwd s.prog s.ip = some m → (s.tape.read s.ptr.toNat).toInt = 0 →
    step s = .next { s with ip := m } ∧
    step { s with ip := m } =
      .next { s with
        ip := s.ip + 1
        status := if s.ip + 1 = s.prog.length then .halted else .running }

/-! ### Errors -/

/-- R156: `raise` writes the error's code to `STATUS` and nothing else. In the state it leaves no step is enabled (R81,
R159); that the model answers a step asked for there with a refusal is the model's choice (log 7). The codes are the
spec's own decision D8 (R155). -/
def Obligations.RaiseWritesOnlyStatus : Prop :=
  (∀ s : State, raise .emptyProgram s = { s with status := .faultEmpty } ∧
    raise .input s = { s with status := .faultInput } ∧
    raise .malformedProgram s = { s with status := .faultMalformed }) ∧
  ∀ (e : MachineError) (s : State), ∃ r, step (raise e s) = .refused r

/-- R154: `MalformedProgramError` is raised exactly when a bracket scan returns `None`. -/
def Obligations.MalformedErrorExactlyWhenAScanFails : Prop :=
  ∀ (s t : State) (b : Byte), s.prog[s.ip]? = some b → step s = .next t →
    (t.status = .faultMalformed ↔
      (b = 0x5B ∧ (s.tape.read s.ptr.toNat).toInt = 0 ∧ matchFwd s.prog s.ip = none) ∨
      (b = 0x5D ∧ matchBwd s.prog s.ip = none))

/-- R153: `InputError` is raised exactly when an `IN` is answered with `Fail`. -/
def Obligations.InputErrorExactlyWhenTheSourceFails : Prop :=
  ∀ (s t : State) (b : Byte), s.prog[s.ip]? = some b → step s = .next t →
    (t.status = .faultInput ↔ b = 0x2C ∧ s.input.head? = some .fail)

/-- R157, the spec's own decision D7: errors are precise. A step that raises an error changes `STATUS` and nothing else,
`IP` indexes the instruction that raised it, and `Prog[IP]` tells which it was (R155). -/
def Obligations.ErrorsArePrecise : Prop :=
  ∀ s t : State, step s = .next t →
    (t.status = .faultInput → t = { s with status := .faultInput } ∧ t.prog[t.ip]? = some 0x2C) ∧
    (t.status = .faultMalformed → t = { s with status := .faultMalformed } ∧
      (t.prog[t.ip]? = some 0x5B ∨ t.prog[t.ip]? = some 0x5D)) ∧
    t.status ≠ .faultEmpty

/-! ### The whole machine -/

/-- The invariant of a step boundary (R24, R25, R28, R81, R84, R155 and the canonical form of the tape) is kept by every
step from every state that has it. -/
def Obligations.StepKeepsInvariant : Prop := ∀ s t : State, s.Inv → step s = .next t → t.Inv

/-- The reset state is `create` of no bytes (the model's choice, log 2) and has the invariant. -/
def Obligations.ResetHasInvariant : Prop := State.reset = create [] ∧ State.reset.Inv

/-- The host's requests give and keep the invariant (R180, R182, R186). Its case `create []` speaks of `PTR`, `IP`, `Tape`
and `Prog` in `FAULT_EMPTY`, which the spec leaves undefined (D20, U14): there it is a fact about the values the model
names (the model's choice, log 2) and says nothing of the machine. -/
def Obligations.HostRequestsKeepInvariant : Prop :=
  (∀ bytes, (create bytes).Inv) ∧
  (∀ as (s t : State), s.Inv → runRequest as s = .next t → t.Inv) ∧
  ∀ as (s : State), s.Inv → (supply as s).Inv

/-- R50 and R81, the latter derived by the spec: in `RUNNING` the model's step always gives a next state, whatever the
byte, the tape, the pointer and the input are. For an `IN` with no answer the spec says that the step never completes and
no later step happens (R115, U11); that the model's step then gives the same state is the model's choice (log 4), and
this statement does not say that such a machine goes on. -/
def Obligations.RunningMachineAlwaysSteps : Prop := ∀ s : State, s.Inv → s.status = .running → s.CanStep

/-- R50, R150: no run of any length, from any state with the invariant, ends in a fault of the model; where it is refused,
`STATUS` has left `RUNNING`. Two choices of the model stand behind the second clause: the refusal `noStepEnabled` is its
answer where the spec says that no step exists (log 7), and an `IN` with no answer, which by R115 and U11 waits for ever
in `RUNNING`, is a step to the same state (log 4). -/
def Obligations.NoRunFaults : Prop :=
  ∀ (k : Nat) (s : State), s.Inv →
    (∀ f, Sys2Proof.core.run k s ≠ .fault f) ∧
    ∀ r, Sys2Proof.core.run k s = .refused r → ∃ st, st ≠ .running ∧ r = Refusal.noStepEnabled st

/-- R28 and R84, the spec's own decisions D8, D14 and D17: what a step can make of `STATUS`, with `IP` in each case. A step
of an `IN` that waits, which the model shows (log 4), is among those that stay in `RUNNING`. -/
def Obligations.StatusTransitionsOfAStep : Prop :=
  ∀ s t : State, s.Inv → step s = .next t →
    s.status = .running ∧
    ((t.status = .running ∧ t.ip < t.prog.length) ∨ (t.status = .halted ∧ t.ip = t.prog.length) ∨
      (t.status = .faultInput ∧ t.ip = s.ip) ∨ (t.status = .faultMalformed ∧ t.ip = s.ip))

/-- R29, R55, R57: no step changes the program, takes back an output or puts back an answer; at most one value is emitted
and at most one answer consumed. -/
def Obligations.ProgramFixedAndStreamsMonotone : Prop :=
  ∀ s t : State, step s = .next t →
    t.prog = s.prog ∧
    (t.outTrace = s.outTrace ∨ t.outTrace = s.outTrace ++ [s.tape.read s.ptr.toNat]) ∧
    (t.input = s.input ∨ ∃ c, s.input = .char c :: t.input)

/-- R21, R42: a step changes no cell but the active one, and the active one only where the byte performed is `+`, `-` or
`,`. -/
def Obligations.OnlyTheActiveCellChanges : Prop :=
  ∀ (s t : State) (b : Byte), s.tape.wf = true → s.prog[s.ip]? = some b → step s = .next t →
    (∀ k, k ≠ s.ptr.toNat → t.tape.read k = s.tape.read k) ∧
    (b ≠ 0x2B → b ≠ 0x2D → b ≠ 0x2C → ∀ k, t.tape.read k = s.tape.read k)

/-- R42, R63: `LEFT`, `RIGHT`, `LOOPE`, `CMT` and `NOP` neither read nor write the tape: on any other tape they complete
with the same outcome, and that tape. -/
def Obligations.TapelessInstructionsIgnoreTheTape : Prop :=
  ∀ (s : State) (m : Memory) (i : Instr), (i = .left ∨ i = .right ∨ i = .loope ∨ i = .cmt ∨ ∃ b, i = .nop b) →
    ∃ t, exec i s = .next t ∧ t.tape = s.tape ∧ exec i { s with tape := m } = .next { t with tape := m }

/-- R85, R153: a step that is not an `IN` does not depend on the input source. -/
def Obligations.OnlyInReadsTheInput : Prop :=
  ∀ (s t : State) (b : Byte) (as : List Answer), s.prog[s.ip]? = some b → b ≠ 0x2C → step s = .next t →
    t.input = s.input ∧ step { s with input := as } = .next { t with input := as }

/-- R8, R33: no step reads `OutTrace`. -/
def Obligations.NoStepReadsTheOutput : Prop :=
  ∀ (s t : State) (earlier : List Cell), step s = .next t →
    step { s with outTrace := earlier ++ s.outTrace } = .next { t with outTrace := earlier ++ t.outTrace }

/-- R142 with R84, a consequence the spec derives: where every byte from `IP` on is a `NOP`, the machine halts after
exactly as many steps as there are bytes left, and only `IP` and `STATUS` have changed. -/
def Obligations.NopsRunToTheEnd : Prop :=
  ∀ s : State, s.status = .running → s.ip < s.prog.length →
    (∀ k b, s.ip ≤ k → s.prog[k]? = some b → decode b = .nop b) →
    Sys2Proof.core.run (s.prog.length - s.ip) s = .next { s with ip := s.prog.length, status := .halted }

/-! ### Arithmetic and the tape -/

/-- `s16` is the formula of `00_scope.md` section 5, for every integer. -/
def Obligations.NarrowingFormula : Prop := ∀ v : Int, (s16 v).toInt = (v + 32768) % 65536 - 32768

/-- R92: `INC` and `DEC` are inverse to each other on every value, as the spec derives; here with the tape restored as
data, which needs its canonical form (log 3). -/
def Obligations.IncAndDecAreInverse : Prop :=
  ∀ s : State, s.tape.wf = true → s.ptr.toNat < 65535 →
    (∃ t, exec .inc s = .next t ∧ exec .dec t = .next { s with ip := s.ip + 2 }) ∧
    ∃ t, exec .dec s = .next t ∧ exec .inc t = .next { s with ip := s.ip + 2 }

/-- R92, as the spec derives: 65536 `INC`s in a row, and 65536 `DEC`s in a row, restore the machine but for `IP`. -/
def Obligations.CellsWrapAfter65536 : Prop :=
  ∀ s : State, s.tape.wf = true → s.ptr.toNat < 65535 →
    ∀ i : Instr, (i = .inc ∨ i = .dec) →
      ∃ run : Nat → State, run 0 = s ∧ (∀ n, exec i (run n) = .next (run (n + 1))) ∧
        run 65536 = { s with ip := s.ip + 65536 }

/-- R100, the spec's own decision D1, as the spec derives: `LEFT` and `RIGHT` are inverse to each other, and 65535 of
either in a row restore `PTR`; the machine is as before but for `IP`. -/
def Obligations.TheTapeIsARing : Prop :=
  ∀ s : State, s.ptr.toNat < 65535 →
    (∃ t, exec .left s = .next t ∧ exec .right t = .next { s with ip := s.ip + 2 }) ∧
    (∃ t, exec .right s = .next t ∧ exec .left t = .next { s with ip := s.ip + 2 }) ∧
    ∀ i : Instr, (i = .left ∨ i = .right) →
      ∃ run : Nat → State, run 0 = s ∧ (∀ n, exec i (run n) = .next (run (n + 1))) ∧
        run 65535 = { s with ip := s.ip + 65535 }

/-- The canonical form of the model's tape (log 3): two tapes in it that read alike at every index are the same data. -/
def Obligations.CanonicalTapesThatReadAlikeAreEqual : Prop :=
  ∀ m m' : Memory, m.wf = true → m'.wf = true → (∀ k, m.read k = m'.read k) → m = m'

/-! ### The host's requests and the status register -/

/-- R22: every cell is zero after construction. -/
def Obligations.CreateZeroesEveryCell : Prop :=
  ∀ (bytes : List Byte), bytes ≠ [] → ∀ k, k < 65535 → (create bytes).tape.read k = 0

/-- R180 and R34, with the spec's own decisions D20 and D23: `create` of at least one byte gives a machine that is
`READY`, whatever the bytes are. That no answer of a source is there yet is the model's choice (log 5). -/
def Obligations.CreateMakesAReadyMachine : Prop :=
  ∀ bytes : List Byte, bytes ≠ [] →
    create bytes =
      { prog := bytes, ip := 0, ptr := 0, tape := [], status := .ready, input := [], outTrace := [] }

/-- R152: `create` of no bytes raises `EmptyProgramError`, which is what the caller gets (R151), with no output; a `run`
is refused (R183, the spec's own decision D14). No step is enabled (R81); that the model answers a step asked for there
with a refusal is the model's choice (log 7). A program of one or more bytes is accepted whatever the bytes are. -/
def Obligations.CreateOfNothingFails : Prop :=
  (create []).status = .faultEmpty ∧ callerResult (create []) = some (.error .emptyProgram) ∧
  (create []).outTrace = [] ∧ (∃ r, step (create []) = .refused r) ∧
  (∀ as, ∃ r, runRequest as (create []) = .refused r) ∧
  ∀ bytes : List Byte, bytes ≠ [] → (create bytes).status = .ready

/-- R182, R183 with the spec's own decision D14: `run` is accepted exactly in `READY`, starts at index 0, and touches
neither the tape nor the pointer. -/
def Obligations.RunStartsOnlyAReadyMachine : Prop :=
  ∀ (as : List Answer) (s : State),
    (s.status = .ready → runRequest as s = .next { s with input := as, ip := 0, status := .running }) ∧
    (s.status ≠ .ready → runRequest as s = .refused (.runNotAccepted s.status))

/-- R27, the spec's own decision D8: the codes of `STATUS`; codes 6 and 7 are never held. -/
def Obligations.StatusCodes : Prop :=
  Status.code .ready = 0 ∧ Status.code .running = 1 ∧ Status.code .halted = 2 ∧ Status.code .faultEmpty = 3 ∧
  Status.code .faultInput = 4 ∧ Status.code .faultMalformed = 5 ∧
  (∀ st : Status, st.code ≠ 6 ∧ st.code ≠ 7) ∧ ∀ st st' : Status, st.code = st'.code → st = st'

/-- R151 with R27: what the caller gets, read from `STATUS`. `create` yields a machine or `EmptyProgramError`; while `run`
is in progress there is no result, and a step yields none yet, `()`, `InputError` or `MalformedProgramError`. -/
def Obligations.CallerReadsTheResultFromStatus : Prop :=
  (∀ s : State,
    (callerResult s = some .machine ↔ s.status = .ready) ∧
    (callerResult s = none ↔ s.status = .running) ∧
    (callerResult s = some .returned ↔ s.status = .halted) ∧
    (callerResult s = some (.error .emptyProgram) ↔ s.status = .faultEmpty) ∧
    (callerResult s = some (.error .input) ↔ s.status = .faultInput) ∧
    (callerResult s = some (.error .malformedProgram) ↔ s.status = .faultMalformed)) ∧
  (∀ bytes : List Byte, callerResult (create bytes) =
    if bytes = [] then some (.error .emptyProgram) else some .machine) ∧
  ∀ s t : State, step s = .next t →
    callerResult s = none ∧
    (callerResult t = none ∨ callerResult t = some .returned ∨ callerResult t = some (.error .input) ∨
      callerResult t = some (.error .malformedProgram))
end

