-- ==== Sys2Proof/Laws/State.lean ====
section
/-! SUPPORT. What each field of the state is after each update: one lemma for each field and update. -/

namespace Sys2Proof.Machine

@[simp] theorem State.advance_prog (s : State) : s.advance.prog = s.prog := rfl
@[simp] theorem State.advance_ip (s : State) : s.advance.ip = s.ip + 1 := rfl
@[simp] theorem State.advance_ptr (s : State) : s.advance.ptr = s.ptr := rfl
@[simp] theorem State.advance_tape (s : State) : s.advance.tape = s.tape := rfl
@[simp] theorem State.advance_status (s : State) : s.advance.status = s.status := rfl
@[simp] theorem State.advance_input (s : State) : s.advance.input = s.input := rfl
@[simp] theorem State.advance_outTrace (s : State) : s.advance.outTrace = s.outTrace := rfl

@[simp] theorem State.jump_prog (s : State) (t : Nat) : (s.jump t).prog = s.prog := rfl
@[simp] theorem State.jump_ip (s : State) (t : Nat) : (s.jump t).ip = t := rfl
@[simp] theorem State.jump_ptr (s : State) (t : Nat) : (s.jump t).ptr = s.ptr := rfl
@[simp] theorem State.jump_tape (s : State) (t : Nat) : (s.jump t).tape = s.tape := rfl
@[simp] theorem State.jump_status (s : State) (t : Nat) : (s.jump t).status = s.status := rfl
@[simp] theorem State.jump_input (s : State) (t : Nat) : (s.jump t).input = s.input := rfl
@[simp] theorem State.jump_outTrace (s : State) (t : Nat) : (s.jump t).outTrace = s.outTrace := rfl

@[simp] theorem State.setPtr_prog (s : State) (p : Ptr) : (s.setPtr p).prog = s.prog := rfl
@[simp] theorem State.setPtr_ip (s : State) (p : Ptr) : (s.setPtr p).ip = s.ip := rfl
@[simp] theorem State.setPtr_ptr (s : State) (p : Ptr) : (s.setPtr p).ptr = p := rfl
@[simp] theorem State.setPtr_tape (s : State) (p : Ptr) : (s.setPtr p).tape = s.tape := rfl
@[simp] theorem State.setPtr_status (s : State) (p : Ptr) : (s.setPtr p).status = s.status := rfl
@[simp] theorem State.setPtr_input (s : State) (p : Ptr) : (s.setPtr p).input = s.input := rfl
@[simp] theorem State.setPtr_outTrace (s : State) (p : Ptr) : (s.setPtr p).outTrace = s.outTrace := rfl

@[simp] theorem State.setCell_prog (s : State) (k : Nat) (v : Cell) : (s.setCell k v).prog = s.prog := rfl
@[simp] theorem State.setCell_ip (s : State) (k : Nat) (v : Cell) : (s.setCell k v).ip = s.ip := rfl
@[simp] theorem State.setCell_ptr (s : State) (k : Nat) (v : Cell) : (s.setCell k v).ptr = s.ptr := rfl
@[simp] theorem State.setCell_tape (s : State) (k : Nat) (v : Cell) : (s.setCell k v).tape = s.tape.write k v := rfl
@[simp] theorem State.setCell_status (s : State) (k : Nat) (v : Cell) : (s.setCell k v).status = s.status := rfl
@[simp] theorem State.setCell_input (s : State) (k : Nat) (v : Cell) : (s.setCell k v).input = s.input := rfl
@[simp] theorem State.setCell_outTrace (s : State) (k : Nat) (v : Cell) : (s.setCell k v).outTrace = s.outTrace := rfl

@[simp] theorem State.setStatus_prog (s : State) (st : Status) : (s.setStatus st).prog = s.prog := rfl
@[simp] theorem State.setStatus_ip (s : State) (st : Status) : (s.setStatus st).ip = s.ip := rfl
@[simp] theorem State.setStatus_ptr (s : State) (st : Status) : (s.setStatus st).ptr = s.ptr := rfl
@[simp] theorem State.setStatus_tape (s : State) (st : Status) : (s.setStatus st).tape = s.tape := rfl
@[simp] theorem State.setStatus_status (s : State) (st : Status) : (s.setStatus st).status = st := rfl
@[simp] theorem State.setStatus_input (s : State) (st : Status) : (s.setStatus st).input = s.input := rfl
@[simp] theorem State.setStatus_outTrace (s : State) (st : Status) : (s.setStatus st).outTrace = s.outTrace := rfl

@[simp] theorem State.emit_prog (s : State) (v : Cell) : (s.emit v).prog = s.prog := rfl
@[simp] theorem State.emit_ip (s : State) (v : Cell) : (s.emit v).ip = s.ip := rfl
@[simp] theorem State.emit_ptr (s : State) (v : Cell) : (s.emit v).ptr = s.ptr := rfl
@[simp] theorem State.emit_tape (s : State) (v : Cell) : (s.emit v).tape = s.tape := rfl
@[simp] theorem State.emit_status (s : State) (v : Cell) : (s.emit v).status = s.status := rfl
@[simp] theorem State.emit_input (s : State) (v : Cell) : (s.emit v).input = s.input := rfl
@[simp] theorem State.emit_outTrace (s : State) (v : Cell) : (s.emit v).outTrace = s.outTrace ++ [v] := rfl

@[simp] theorem State.setInput_prog (s : State) (as : List Answer) : (s.setInput as).prog = s.prog := rfl
@[simp] theorem State.setInput_ip (s : State) (as : List Answer) : (s.setInput as).ip = s.ip := rfl
@[simp] theorem State.setInput_ptr (s : State) (as : List Answer) : (s.setInput as).ptr = s.ptr := rfl
@[simp] theorem State.setInput_tape (s : State) (as : List Answer) : (s.setInput as).tape = s.tape := rfl
@[simp] theorem State.setInput_status (s : State) (as : List Answer) : (s.setInput as).status = s.status := rfl
@[simp] theorem State.setInput_input (s : State) (as : List Answer) : (s.setInput as).input = as := rfl
@[simp] theorem State.setInput_outTrace (s : State) (as : List Answer) : (s.setInput as).outTrace = s.outTrace := rfl

@[simp] theorem raise_prog (e : MachineError) (s : State) : (raise e s).prog = s.prog := rfl
@[simp] theorem raise_ip (e : MachineError) (s : State) : (raise e s).ip = s.ip := rfl
@[simp] theorem raise_ptr (e : MachineError) (s : State) : (raise e s).ptr = s.ptr := rfl
@[simp] theorem raise_tape (e : MachineError) (s : State) : (raise e s).tape = s.tape := rfl
@[simp] theorem raise_status (e : MachineError) (s : State) : (raise e s).status = e.status := rfl
@[simp] theorem raise_input (e : MachineError) (s : State) : (raise e s).input = s.input := rfl
@[simp] theorem raise_outTrace (e : MachineError) (s : State) : (raise e s).outTrace = s.outTrace := rfl

@[simp] theorem haltIfDone_prog (s : State) : (haltIfDone s).prog = s.prog := by
  unfold haltIfDone; split <;> rfl
@[simp] theorem haltIfDone_ip (s : State) : (haltIfDone s).ip = s.ip := by
  unfold haltIfDone; split <;> rfl
@[simp] theorem haltIfDone_ptr (s : State) : (haltIfDone s).ptr = s.ptr := by
  unfold haltIfDone; split <;> rfl
@[simp] theorem haltIfDone_tape (s : State) : (haltIfDone s).tape = s.tape := by
  unfold haltIfDone; split <;> rfl
@[simp] theorem haltIfDone_input (s : State) : (haltIfDone s).input = s.input := by
  unfold haltIfDone; split <;> rfl
@[simp] theorem haltIfDone_outTrace (s : State) : (haltIfDone s).outTrace = s.outTrace := by
  unfold haltIfDone; split <;> rfl

/-- What the halt test does to `STATUS` (R84). -/
theorem haltIfDone_status (s : State) :
    (haltIfDone s).status = if s.status = .running ∧ s.ip = s.prog.length then .halted else s.status := by
  unfold haltIfDone; split <;> rfl

@[simp] theorem haltTest_next (s : State) : haltTest (.next s) = .next (haltIfDone s) := rfl
@[simp] theorem haltTest_fault (f : Fault) : haltTest (.fault f) = .fault f := rfl
@[simp] theorem haltTest_refused (r : Refusal) : haltTest (.refused r) = .refused r := rfl

@[simp] theorem State.withFetchWord_ip (s : State) (nbits w : Nat) : (s.withFetchWord nbits w).ip = s.ip := rfl
@[simp] theorem State.withFetchWord_ptr (s : State) (nbits w : Nat) : (s.withFetchWord nbits w).ptr = s.ptr := rfl
@[simp] theorem State.withFetchWord_tape (s : State) (nbits w : Nat) : (s.withFetchWord nbits w).tape = s.tape := rfl
@[simp] theorem State.withFetchWord_input (s : State) (nbits w : Nat) : (s.withFetchWord nbits w).input = s.input := rfl
@[simp] theorem State.withFetchWord_outTrace (s : State) (nbits w : Nat) : (s.withFetchWord nbits w).outTrace = s.outTrace := rfl
@[simp] theorem State.withFetchWord_status (s : State) (nbits w : Nat) :
    (s.withFetchWord nbits w).status = .running := rfl
@[simp] theorem State.withFetchWord_prog (s : State) (nbits w : Nat) :
    (s.withFetchWord nbits w).prog =
      placeByte s.prog s.ip (BitVec.ofNat 8 (w % 2 ^ nbits)) := rfl

end Sys2Proof.Machine
end

