-- ==== Sys2Proof/Laws/Ops.lean ====
section
/-! SUPPORT. For each shared operation, once, everything it can do. -/

namespace Sys2Proof.Machine

/-- `atActiveCell` gives a next state exactly where `PTR` names a cell and `body` gives that state there. -/
theorem atActiveCell_next {s t : State} {body : Nat → Result} :
    atActiveCell s body = .next t ↔ s.ptr.toNat < Config.tapeLen ∧ body s.ptr.toNat = .next t := by
  unfold atActiveCell effectiveAddress
  split <;> simp_all

/-- Where `PTR` names a cell, `atActiveCell` is `body` at that cell (R42). -/
theorem atActiveCell_of_lt {s : State} (h : s.ptr.toNat < Config.tapeLen) (body : Nat → Result) :
    atActiveCell s body = body s.ptr.toNat := by
  unfold atActiveCell effectiveAddress
  rw [if_pos h]

/-- `updateActiveCell` gives a next state exactly where `PTR` names a cell: that cell is updated and `IP` advances. -/
theorem updateActiveCell_next {f : Int → Int} {s t : State} :
    updateActiveCell f s = .next t ↔
      s.ptr.toNat < Config.tapeLen ∧
        (s.setCell s.ptr.toNat (s16 (f (s.tape.read s.ptr.toNat).toInt))).advance = t := by
  unfold updateActiveCell
  rw [atActiveCell_next]
  simp

/-- A step that gives a next state was enabled, fetched a byte, performed it and made the halt test. -/
theorem step_next {s t : State} (h : step s = .next t) :
    s.status = .running ∧
      ∃ b u, s.prog[s.ip]? = some b ∧ exec (decode b) s = .next u ∧ haltIfDone u = t := by
  unfold step at h
  split at h
  · rename_i hrun
    refine ⟨hrun, ?_⟩
    split at h
    · rename_i b hb
      cases hu : exec (decode b) s with
      | next u => exact ⟨b, u, hb, hu, by simpa [hu] using h⟩
      | fault f => simp [hu] at h
      | refused r => simp [hu] at h
    · simp at h
  · simp at h

/-- A running machine with a byte at `IP` performs it. -/
theorem step_of_fetch {s : State} {b : Byte} (hrun : s.status = .running) (hb : s.prog[s.ip]? = some b) :
    step s = haltTest (exec (decode b) s) := by
  simp [step, hrun, fetch, hb]

/-- A `run` request that is accepted (R182). -/
theorem runRequest_next {as : List Answer} {s t : State} :
    runRequest as s = .next t ↔
      s.status = .ready ∧ ((s.setInput as).jump 0).setStatus .running = t := by
  unfold runRequest
  split <;> simp_all

/-- What `create` gives for at least one byte (R180). -/
theorem create_of_ne_nil {bytes : List Byte} (h : bytes ≠ []) :
    create bytes =
      { prog := bytes, ip := 0, ptr := 0, tape := [], status := .ready, input := [], outTrace := [] } := by
  simp [create, h]

/-- `placeByte` puts the byte where it says. -/
theorem placeByte_getElem? (prog : List Byte) (k : Nat) (b : Byte) : (placeByte prog k b)[k]? = some b := by
  have h : (prog.take k ++ List.replicate (k - prog.length) (0 : Byte)).length = k := by
    simp; omega
  unfold placeByte
  rw [List.getElem?_append_right h.le, h]
  simp

end Sys2Proof.Machine
end

