-- ==== Sys2Proof/Laws/Exec.lean ====
section
/-! SUPPORT. For each instruction, once, every next state it can give; the small facts of the condition of `LOOPS`; and
what no instruction does. -/

namespace Sys2Proof.Machine

@[simp] theorem isZero_iff (v : Cell) : isZero v = true ↔ v.toInt = 0 := by simp [isZero]

theorem exec_inc_next {s t : State} :
    exec .inc s = .next t ↔
      s.ptr.toNat < Config.tapeLen ∧
        (s.setCell s.ptr.toNat (s16 ((s.tape.read s.ptr.toNat).toInt + 1))).advance = t :=
  updateActiveCell_next (f := fun v => v + 1)

theorem exec_dec_next {s t : State} :
    exec .dec s = .next t ↔
      s.ptr.toNat < Config.tapeLen ∧
        (s.setCell s.ptr.toNat (s16 ((s.tape.read s.ptr.toNat).toInt - 1))).advance = t :=
  updateActiveCell_next (f := fun v => v - 1)

theorem exec_left_next {s t : State} :
    exec .left s = .next t ↔ (s.setPtr (ptrLeft s.ptr)).advance = t := by
  simp [exec, execLeft]

theorem exec_right_next {s t : State} :
    exec .right s = .next t ↔ (s.setPtr (ptrRight s.ptr)).advance = t := by
  simp [exec, execRight]

theorem exec_out_next {s t : State} :
    exec .out s = .next t ↔
      s.ptr.toNat < Config.tapeLen ∧ (s.emit (s.tape.read s.ptr.toNat)).advance = t := by
  simp only [exec, execOut, atActiveCell_next, Host.Outcome.next.injEq]

/-- The three cases of `IN`: no answer yet, `Fail`, a character. -/
theorem exec_inp_next {s t : State} :
    exec .inp s = .next t ↔
      (s.input = [] ∧ s = t) ∨
      (∃ rest, s.input = .fail :: rest ∧ raise .input s = t) ∨
      ∃ c rest, s.input = .char c :: rest ∧ s.ptr.toNat < Config.tapeLen ∧
        ((s.setInput rest).setCell s.ptr.toNat (s16 c)).advance = t := by
  simp only [exec, execInp]
  split <;> simp_all [atActiveCell_next]

/-- The three cases of `LOOPS`: a cell that is not zero, a zero cell with a partner, a zero cell without one. -/
theorem exec_loops_next {s t : State} :
    exec .loops s = .next t ↔
      s.ptr.toNat < Config.tapeLen ∧
        (((s.tape.read s.ptr.toNat).toInt ≠ 0 ∧ s.advance = t) ∨
        ((s.tape.read s.ptr.toNat).toInt = 0 ∧ ∃ m, matchFwd s.prog s.ip = some m ∧ s.jump (m + 1) = t) ∨
        ((s.tape.read s.ptr.toNat).toInt = 0 ∧ matchFwd s.prog s.ip = none ∧ raise .malformedProgram s = t)) := by
  simp only [exec, execLoops, atActiveCell_next, isZero_iff]
  split
  · split <;> simp_all
  · simp_all

/-- The two cases of `LOOPE`: a partner, or none. -/
theorem exec_loope_next {s t : State} :
    exec .loope s = .next t ↔
      (∃ m, matchBwd s.prog s.ip = some m ∧ s.jump m = t) ∨
      (matchBwd s.prog s.ip = none ∧ raise .malformedProgram s = t) := by
  simp only [exec, execLoope]
  split <;> simp_all

theorem exec_cmt_next {s t : State} :
    exec .cmt s = .next t ↔ s.jump (skipLine (s.prog.drop (s.ip + 1)) (s.ip + 1)) = t := by
  simp [exec, execCmt]

theorem exec_nop_next {s t : State} {b : Byte} : exec (.nop b) s = .next t ↔ s.advance = t := by
  simp [exec, execNop]

/-- No instruction is refused. -/
theorem exec_ne_refused (i : Instr) (s : State) (r : Refusal) : exec i s ≠ .refused r := by
  cases i <;>
    simp only [exec, execInc, execDec, updateActiveCell, execLeft, execRight, execOut, execInp, execLoops, execLoope,
      execCmt, execNop, atActiveCell] <;>
    (repeat' split) <;> simp

/-- Where `PTR` names a cell, no instruction faults, so each has a next state (R150). -/
theorem exec_completes {s : State} (h : s.ptr.toNat < Config.tapeLen) (i : Instr) : ∃ t, exec i s = .next t := by
  cases i <;>
    simp only [exec, execInc, execDec, updateActiveCell, execLeft, execRight, execOut, execInp, execLoops, execLoope,
      execCmt, execNop, atActiveCell_of_lt h] <;>
    (repeat' split) <;> exact ⟨_, rfl⟩

end Sys2Proof.Machine
end

