-- ==== Sys2Proof/Laws/Memory.lean ====
section
/-! SUPPORT. The tape: reading after writing, and the canonical form. -/

namespace Sys2Proof.Machine

@[simp] theorem Memory.read_nil (k : Nat) : Memory.read [] k = 0 := rfl

@[simp] theorem Memory.wf_nil : Memory.wf [] = true := rfl

theorem Memory.wfFrom_cons {lo a : Nat} {v : Cell} {m : Memory} :
    Memory.wfFrom lo ((a, v) :: m) = true ↔
      lo ≤ a ∧ a < Config.tapeLen ∧ v ≠ 0 ∧ Memory.wfFrom (a + 1) m = true := by
  simp [Memory.wfFrom, Memory.unlisted, and_assoc]

/-- A tape whose pairs start later is canonical from any earlier index too. -/
theorem Memory.wfFrom_mono {lo lo' : Nat} (h : lo' ≤ lo) {m : Memory} (hm : m.wfFrom lo = true) :
    m.wfFrom lo' = true := by
  cases m with
  | nil => rfl
  | cons p m =>
    obtain ⟨h1, h2⟩ := Memory.wfFrom_cons.mp hm
    exact Memory.wfFrom_cons.mpr ⟨h.trans h1, h2⟩

/-- A cell before the first listed index reads as an unlisted one. -/
theorem Memory.read_of_lt {lo k : Nat} {m : Memory} (hm : m.wfFrom lo = true) (hk : k < lo) : m.read k = 0 := by
  induction m generalizing lo with
  | nil => rfl
  | cons p m ih =>
    obtain ⟨h1, _, _, h4⟩ := Memory.wfFrom_cons.mp hm
    have hne : p.1 ≠ k := by omega
    simpa [Memory.read, hne] using ih h4 (by omega)

theorem Memory.read_cons (a : Nat) (v : Cell) (m : Memory) (k : Nat) :
    Memory.read ((a, v) :: m) k = if a = k then v else m.read k := rfl

theorem Memory.write_nil (k : Nat) (v : Cell) : Memory.write [] k v = if v = 0 then [] else [(k, v)] := rfl

/-- A write before the first listed index. -/
theorem Memory.write_cons_lt {a k : Nat} (h : k < a) (w v : Cell) (m : Memory) :
    Memory.write ((a, w) :: m) k v = if v = 0 then (a, w) :: m else (k, v) :: (a, w) :: m := by
  rw [Memory.write, if_pos h]; rfl

/-- A write to the first listed index. -/
theorem Memory.write_cons_self (k : Nat) (w v : Cell) (m : Memory) :
    Memory.write ((k, w) :: m) k v = if v = 0 then m else (k, v) :: m := by
  rw [Memory.write, if_neg (lt_irrefl k), if_pos rfl]; rfl

/-- A write after the first listed index. -/
theorem Memory.write_cons_gt {a k : Nat} (h : a < k) (w v : Cell) (m : Memory) :
    Memory.write ((a, w) :: m) k v = (a, w) :: m.write k v := by
  rw [Memory.write, if_neg (by omega), if_neg (by omega)]

theorem Memory.read_write_from {lo : Nat} {m : Memory} (hm : m.wfFrom lo = true) (k : Nat) (v : Cell) (j : Nat) :
    (m.write k v).read j = if j = k then v else m.read j := by
  induction m generalizing lo with
  | nil =>
    rw [Memory.write_nil]
    split <;> by_cases hj : k = j <;> simp_all [Memory.read_cons]
    omega
  | cons p m ih =>
    obtain ⟨a, w⟩ := p
    obtain ⟨_, _, _, h4⟩ := Memory.wfFrom_cons.mp hm
    rcases lt_trichotomy k a with hlt | rfl | hgt
    · have hk : Memory.read m k = 0 := Memory.read_of_lt h4 (by omega)
      rw [Memory.write_cons_lt hlt]
      split <;> simp only [Memory.read_cons] <;> split_ifs <;>
        first | rfl | omega | (subst_vars; first | rfl | exact hk)
    · have hk : Memory.read m k = 0 := Memory.read_of_lt h4 (by omega)
      rw [Memory.write_cons_self]
      split <;> simp only [Memory.read_cons] <;> split_ifs <;>
        first | rfl | omega | (subst_vars; first | rfl | exact hk)
    · rw [Memory.write_cons_gt hgt]
      simp only [Memory.read_cons, ih h4]
      split_ifs <;> first | omega | rfl

/-- Reading a cell of a canonical tape after a write: the value written at the index written, the old value at every
other index (R52). -/
theorem Memory.read_write {m : Memory} (hm : m.wf = true) (k : Nat) (v : Cell) (j : Nat) :
    (m.write k v).read j = if j = k then v else m.read j :=
  Memory.read_write_from hm k v j

theorem Memory.write_wfFrom {lo k : Nat} {m : Memory} (hm : m.wfFrom lo = true) (hlo : lo ≤ k)
    (hk : k < Config.tapeLen) (v : Cell) : (m.write k v).wfFrom lo = true := by
  induction m generalizing lo with
  | nil =>
    rw [Memory.write_nil]
    split
    · rfl
    · rename_i hv
      exact Memory.wfFrom_cons.mpr ⟨hlo, hk, hv, rfl⟩
  | cons p m ih =>
    obtain ⟨a, w⟩ := p
    obtain ⟨h1, h2, h3, h4⟩ := Memory.wfFrom_cons.mp hm
    rcases lt_trichotomy k a with hlt | rfl | hgt
    · rw [Memory.write_cons_lt hlt]
      split
      · exact hm
      · rename_i hv
        exact Memory.wfFrom_cons.mpr ⟨hlo, hk, hv, Memory.wfFrom_cons.mpr ⟨hlt, h2, h3, h4⟩⟩
    · rw [Memory.write_cons_self]
      split
      · exact Memory.wfFrom_mono (by omega) h4
      · rename_i hv
        exact Memory.wfFrom_cons.mpr ⟨h1, h2, hv, h4⟩
    · rw [Memory.write_cons_gt hgt]
      exact Memory.wfFrom_cons.mpr ⟨h1, h2, h3, ih h4 hgt⟩

/-- A write to a cell that exists keeps the canonical form. -/
theorem Memory.write_wf {m : Memory} (hm : m.wf = true) {k : Nat} (hk : k < Config.tapeLen) (v : Cell) :
    (m.write k v).wf = true :=
  Memory.write_wfFrom hm (Nat.zero_le k) hk v

/-- The tape of the reset state has the canonical form. -/
theorem reset_tape_wf : State.reset.tape.wf = true := rfl

end Sys2Proof.Machine
end

