-- ==== Sys2Proof/Laws/PerInstr.lean ====
section
/-! SUPPORT. The statement made instruction by instruction: every instruction is exactly one byte long (R60). -/

namespace Sys2Proof.Laws.OneByte

/-- R60: the encoding of the instruction is one byte, and no other length is decoded. -/
def Statement (i : Instr) : Prop :=
  (encodeBytes i).length = 1 ∧ ∀ rest, decodeBytes (encodeBytes i ++ rest) = .ok (decode (encode i), rest)

theorem inc : Statement .inc := ⟨rfl, fun _ => rfl⟩
theorem dec : Statement .dec := ⟨rfl, fun _ => rfl⟩
theorem left : Statement .left := ⟨rfl, fun _ => rfl⟩
theorem right : Statement .right := ⟨rfl, fun _ => rfl⟩
theorem out : Statement .out := ⟨rfl, fun _ => rfl⟩
theorem inp : Statement .inp := ⟨rfl, fun _ => rfl⟩
theorem loops : Statement .loops := ⟨rfl, fun _ => rfl⟩
theorem loope : Statement .loope := ⟨rfl, fun _ => rfl⟩
theorem cmt : Statement .cmt := ⟨rfl, fun _ => rfl⟩
theorem nop (b : Byte) : Statement (.nop b) := ⟨rfl, fun _ => rfl⟩

end Sys2Proof.Laws.OneByte
end

