-- ==== Sys2Proof/Laws/Run.lean ====
section
/-! SUPPORT. A run of several steps, taken one step at a time. -/

namespace Sys2Proof.Machine

@[simp] theorem run_zero (s : State) : Sys2Proof.core.run 0 s = .next s := rfl

/-- A run whose first step gives a next state goes on from there. -/
theorem run_succ_next {s t : State} (h : step s = .next t) (k : Nat) :
    Sys2Proof.core.run (k + 1) s = Sys2Proof.core.run k t := by
  simp only [Host.Core.run, show Sys2Proof.core.step s = .next t from h]

/-- A run from a state in which no step exists is refused (R81). -/
theorem run_succ_refused {s : State} (h : s.status ≠ .running) (k : Nat) :
    Sys2Proof.core.run (k + 1) s = .refused (Refusal.noStepEnabled s.status) := by
  have hs : step s = .refused (.noStepEnabled s.status) := if_neg h
  simp only [Host.Core.run, show Sys2Proof.core.step s = .refused (Refusal.noStepEnabled s.status) from hs]

end Sys2Proof.Machine
end

