-- ==== Sys2Proof/Laws/Scan.lean ====
section
/-! SUPPORT. The scans of the bracket engine and of `CMT`, one byte at a time; and the pointer's range. -/

namespace Sys2Proof.Machine

theorem nextDepth_opens (opens closes : Byte) (depth : Nat) : nextDepth opens closes opens depth = depth + 1 := by
  simp [nextDepth]

theorem nextDepth_closes {opens closes : Byte} (h : closes ≠ opens) (depth : Nat) :
    nextDepth opens closes closes depth = depth - 1 := by
  simp [nextDepth, h]

/-- A byte that is no bracket leaves the depth as it is (R131). -/
theorem nextDepth_other {opens closes b : Byte} (h : b ≠ opens) (h' : b ≠ closes) (depth : Nat) :
    nextDepth opens closes b depth = depth := by
  simp [nextDepth, h, h']

@[simp] theorem scanFwd_nil (j depth : Nat) : scanFwd [] j depth = none := rfl

theorem scanFwd_cons (b : Byte) (rest : List Byte) (j depth : Nat) :
    scanFwd (b :: rest) j depth =
      if nextDepth opLoops opLoope b depth = 0 then some j
      else scanFwd rest (j + 1) (nextDepth opLoops opLoope b depth) := rfl

@[simp] theorem scanBwd_nil (depth : Nat) : scanBwd [] depth = none := rfl

theorem scanBwd_cons (b : Byte) (rest : List Byte) (depth : Nat) :
    scanBwd (b :: rest) depth =
      if nextDepth opLoope opLoops b depth = 0 then some rest.length
      else scanBwd rest (nextDepth opLoope opLoops b depth) := rfl

@[simp] theorem skipLine_nil (j : Nat) : skipLine [] j = j := rfl

theorem skipLine_cons (b : Byte) (rest : List Byte) (j : Nat) :
    skipLine (b :: rest) j = if b = Config.newline then j else skipLine rest (j + 1) := rfl

/-- Pointer movement always gives an index of a cell (R24, R100). -/
theorem ptrLeft_lt (p : Ptr) : (ptrLeft p).toNat < Config.tapeLen := by
  simp only [ptrLeft, BitVec.toNat_ofInt, Config.ptrWidth, Config.tapeLen]
  omega

theorem ptrRight_lt (p : Ptr) : (ptrRight p).toNat < Config.tapeLen := by
  simp only [ptrRight, BitVec.toNat_ofInt, Config.ptrWidth, Config.tapeLen]
  omega

end Sys2Proof.Machine
end

