-- ==== Sys2Proof/Tests/Slice0.lean ====
section
/-! SUPPORT. The model's own tests: the `WellFormed` smoke, the bytes of R62 written out bit by bit, one step at a time
of the vectors of `95_test_vectors.md` (the id stands in each comment), and for every statement with hypotheses a
concrete case that meets them. Every expected value is the spec's, not the model's. -/

namespace Sys2Proof.Tests

open Sys2Proof.Machine Sys2Proof.Terms

/-- A running machine with nothing output yet. -/
def at_ (prog : List Byte) (ip : Nat) (ptr : Ptr) (tape : Memory) (input : List Answer) : State :=
  { prog := prog, ip := ip, ptr := ptr, tape := tape, status := .running, input := input, outTrace := [] }

/-- The next state, where there is one. -/
def after : Result → Option State
  | .next s => some s
  | .fault _ => none
  | .refused _ => none

/-! ### WellFormed: an ill-formed term for the check, refused at each of the nine named bytes -/

theorem test_wellFormed_refuses_named_bytes :
    ([0x2B, 0x2D, 0x3C, 0x3E, 0x2E, 0x2C, 0x5B, 0x5D, 0x23] : List Byte).all
      (fun b => !(Instr.nop b).wellFormed) = true := by decide

/-- The ends of the `NOP` ranges of R62. -/
theorem test_wellFormed_accepts_the_other_bytes :
    ([0x00, 0x22, 0x24, 0x2A, 0x2F, 0x3B, 0x3D, 0x3F, 0x5A, 0x5C, 0x5E, 0xFF] : List Byte).all
      (fun b => (Instr.nop b).wellFormed) = true := by decide

/-! ### Decoding: the bits of the "byte (binary)" column of R62 -/

theorem test_decode_inc : decode 0b00101011 = .inc := by decide
theorem test_decode_dec : decode 0b00101101 = .dec := by decide
theorem test_decode_left : decode 0b00111100 = .left := by decide
theorem test_decode_right : decode 0b00111110 = .right := by decide
theorem test_decode_out : decode 0b00101110 = .out := by decide
theorem test_decode_in : decode 0b00101100 = .inp := by decide
theorem test_decode_loops : decode 0b01011011 = .loops := by decide
theorem test_decode_loope : decode 0b01011101 = .loope := by decide
theorem test_decode_cmt : decode 0b00100011 = .cmt := by decide
theorem test_decode_newline : decode 0b00001010 = .nop 0x0A := by decide
theorem test_decode_zero : decode 0b00000000 = .nop 0x00 := by decide
theorem test_decode_ff : decode 0b11111111 = .nop 0xFF := by decide

theorem test_table_word : decodeTableWord 8 0x5B = some .loops := by decide
theorem test_table_word_two_bytes : decodeTableWord 16 0x2B2B = none := by decide
theorem test_decode_nothing : decodeBytes [] = .error .noByte := rfl

/-! ### Single steps -/

/-- V2: 32767 becomes -32768 (0x8000). -/
theorem test_inc_wraps :
    (after (step (at_ [0x2B] 0 0 [(0, 0x7FFF)] []))).map (fun t => (t.tape, t.ip)) = some ([(0, 0x8000)], 1) := by decide

/-- V3: -1 becomes 0, at the last cell of the tape. -/
theorem test_inc_to_zero :
    (after (step (at_ [0x2B] 0 65534 [(0, 5), (65534, 0xFFFF)] []))).map (·.tape) = some [(0, 5)] := by decide

/-- V6: -32768 becomes 32767. -/
theorem test_dec_wraps :
    (after (step (at_ [0x2D] 0 0 [(0, 0x8000)] []))).map (·.tape) = some [(0, 0x7FFF)] := by decide

/-- V5: 0 becomes -1 (0xFFFF), between two listed cells. -/
theorem test_dec_from_zero :
    (after (step (at_ [0x2D] 0 3 [(2, 7), (4, 9)] []))).map (·.tape) = some [(2, 7), (3, 0xFFFF), (4, 9)] := by decide

/-- V12: left of 0 is 65534. -/
theorem test_left_wraps : (after (step (at_ [0x3C] 0 0 [] []))).map (·.ptr) = some 65534 := by decide

/-- V14: left of 32768 is 32767. -/
theorem test_left_sign_boundary : (after (step (at_ [0x3C] 0 32768 [] []))).map (·.ptr) = some 32767 := by decide

/-- V10: right of 65534 is 0. -/
theorem test_right_wraps : (after (step (at_ [0x3E] 0 65534 [] []))).map (·.ptr) = some 0 := by decide

/-- V11: right of 32767 is 32768. -/
theorem test_right_sign_boundary : (after (step (at_ [0x3E] 0 32767 [] []))).map (·.ptr) = some 32768 := by decide

/-- V18: the value 0 is emitted, not skipped, and the run halts. -/
theorem test_out_zero :
    (after (step (at_ [0x2E] 0 0 [] []))).map (fun t => (t.outTrace, t.status)) = some ([0], .halted) := by decide

/-- V19, its second step: -1 is emitted unchanged and the cell keeps it. -/
theorem test_out_negative :
    (after (step (at_ [0x2D, 0x2E] 1 0 [(0, 0xFFFF)] []))).map (fun t => (t.outTrace, t.tape)) =
      some ([0xFFFF], [(0, 0xFFFF)]) := by decide

/-- V27: code point 0x1F600 is stored as -2560 (0xF600). -/
theorem test_in_narrows :
    (after (step (at_ [0x2C] 0 0 [] [.char 0x1F600]))).map (fun t => (t.tape, t.input)) =
      some ([(0, 0xF600)], []) := by decide

/-- V29c, its second step: a failing `IN` leaves the old value and `IP`. -/
theorem test_in_fails :
    after (step (at_ [0x2B, 0x2C] 1 0 [(0, 1)] [.fail])) =
      some { at_ [0x2B, 0x2C] 1 0 [(0, 1)] [.fail] with status := .faultInput } := by decide

/-- V46: the scan counts nesting, `IP = 4`, halted. -/
theorem test_loops_skips_nested :
    (after (step (at_ [0x5B, 0x5B, 0x5D, 0x5D] 0 0 [] []))).map (fun t => (t.ip, t.status)) = some (4, .halted) := by
  decide

/-- V36: an unmatched `[` with a zero cell faults and stays where it is. -/
theorem test_loops_unmatched :
    (after (step (at_ [0x5B] 0 0 [] []))).map (fun t => (t.ip, t.status)) = some (0, .faultMalformed) := by decide

/-- S3, S4: in `+[-]` the `]` at 3 goes onto the `[` at 1. -/
theorem test_loope_returns :
    (after (step (at_ [0x2B, 0x5B, 0x2D, 0x5D] 3 0 [] []))).map (fun t => (t.ip, t.status)) = some (1, .running) := by
  decide

/-- V42, its second step: the `]` at 2 of `[]]` finds nothing. -/
theorem test_loope_unmatched :
    (after (step (at_ [0x5B, 0x5D, 0x5D] 2 0 [] []))).map (fun t => (t.ip, t.status)) = some (2, .faultMalformed) := by
  decide

/-- V33: a carriage return does not end a comment. -/
theorem test_cmt_passes_carriage_return :
    (after (step (at_ [0x23, 0x0D, 0x2B, 0x0A, 0x2D] 0 0 [] []))).map (·.ip) = some 3 := by decide

/-- V31: a comment with no newline ends the run. -/
theorem test_cmt_last_line :
    (after (step (at_ [0x23] 0 0 [] []))).map (fun t => (t.ip, t.status)) = some (1, .halted) := by decide

/-- V35c: the byte 0x80 is a plain `NOP`. -/
theorem test_nop_high_byte :
    after (step (at_ [0x00, 0x80, 0xFF] 1 7 [(7, 3)] [.char 1])) =
      some (at_ [0x00, 0x80, 0xFF] 2 7 [(7, 3)] [.char 1]) := by decide

/-! ### The engine's function values of `95_test_vectors.md` section 2.6 -/

/-- `++[>+++[>+<-]<-]>>.` -/
theorem test_match_nested :
    let p : List Byte := [0x2B, 0x2B, 0x5B, 0x3E, 0x2B, 0x2B, 0x2B, 0x5B, 0x3E, 0x2B, 0x3C, 0x2D, 0x5D, 0x3C, 0x2D, 0x5D,
      0x3E, 0x3E, 0x2E]
    (matchFwd p 2, matchFwd p 7, matchBwd p 12, matchBwd p 15) = (some 15, some 12, some 7, some 2) := by decide

/-- `[[]` and `[]]` -/
theorem test_match_unbalanced :
    (matchFwd [0x5B, 0x5B, 0x5D] 0, matchFwd [0x5B, 0x5B, 0x5D] 1, matchBwd [0x5B, 0x5B, 0x5D] 2) =
      (none, some 2, some 1) ∧
    (matchFwd [0x5B, 0x5D, 0x5D] 0, matchBwd [0x5B, 0x5D, 0x5D] 1, matchBwd [0x5B, 0x5D, 0x5D] 2) =
      (some 1, some 0, none) := by decide

/-- `+[#[\n-]`: the scans count the bracket in the comment text. -/
theorem test_match_comment_blind :
    let p : List Byte := [0x2B, 0x5B, 0x23, 0x5B, 0x0A, 0x2D, 0x5D]
    (matchBwd p 6, matchFwd p 3, matchFwd p 1) = (some 3, some 6, none) := by decide

/-! ### Reset, `create` and `run` -/

theorem test_reset_is_create_of_nothing : create [] = State.reset := by decide
theorem test_reset_inv : State.reset.Inv := by decide
theorem test_create_then_run :
    after (runRequest [.char 65] (create [0x2C])) = some (at_ [0x2C] 0 0 [] [.char 65]) := by decide
theorem test_fetch_word_after_reset :
    after (step (State.reset.withFetchWord 8 0x2B)) = some { at_ [0x2B] 1 0 [(0, 1)] [] with status := .halted } := by
  decide
theorem test_fetch_word_replaces :
    (at_ [1, 2, 3] 1 0 [] []).withFetchWord 8 0x2B = at_ [1, 0x2B, 3] 1 0 [] [] := by decide

/-! ### A case for the hypotheses of every statement that has some -/

theorem witness_EncodedInstructionDecodesBack :
    Instr.inc.wellFormed = true ∧ (Instr.nop 0x00).wellFormed = true ∧ (Instr.nop 0xFF).wellFormed = true := by decide

theorem witness_ProgramTextIsItsInstructions :
    ∀ i ∈ [Instr.inc, .loops, .nop 0x0A, .cmt], i.wellFormed = true := by decide

theorem witness_StepRunsTheDecodedInstruction :
    let s := at_ [0x2B, 0x5D] 1 0 [] []
    s.status = .running ∧ Instr.loope.wellFormed = true ∧ s.prog[s.ip]? = some (encode .loope) := by decide

theorem witness_StepEnabledExactlyWhenRunning :
    State.reset.status ≠ .running ∧ (at_ [0x2B] 0 0 [] []).status = .running := by decide

/-- The clauses at 32767 and below it, at both ends of the tape. -/
theorem witness_IncAddsOneToTheActiveCell :
    let s := at_ [0x2B] 0 0 [(0, 0x7FFF)] []
    let s' := at_ [0x2B] 0 65534 [(65534, 0x7FFE)] []
    (s.tape.wf = true ∧ s.ptr.toNat < 65535 ∧ (s.tape.read s.ptr.toNat).toInt = 32767) ∧
    s'.tape.wf = true ∧ s'.ptr.toNat < 65535 ∧ (s'.tape.read s'.ptr.toNat).toInt = 32766 := by decide

theorem witness_DecSubtractsOneFromTheActiveCell :
    let s := at_ [0x2D] 0 0 [(0, 0x8000)] []
    let s' := at_ [0x2D] 0 65534 [(65534, 0x8001)] []
    (s.tape.wf = true ∧ s.ptr.toNat < 65535 ∧ (s.tape.read s.ptr.toNat).toInt = -32768) ∧
    s'.tape.wf = true ∧ s'.ptr.toNat < 65535 ∧ (s'.tape.read s'.ptr.toNat).toInt = -32767 := by decide

/-- States at both ends of the tape and their neighbours, for `LEFT`, `RIGHT` and the ring. -/
theorem witness_pointer_range :
    ([0, 1, 65533, 65534] : List Ptr).all (fun p => decide ((at_ [0x3C] 0 p [] []).ptr.toNat < 65535)) = true := by
  decide

theorem witness_OutEmitsTheActiveCell :
    (at_ [0x2E] 0 65534 [(65534, 0x8000)] []).ptr.toNat < 65535 ∧
    ∃ t, Instr.inc ≠ .out ∧ exec .inc (at_ [0x2B] 0 0 [] []) = .next t :=
  ⟨by decide, _, by decide, rfl⟩

/-- Code points at the ends of the ranges of R113. -/
theorem witness_InStoresTheCodePoint :
    (([0, 32767, 32768, 65535, 65536, 0x10FFFF] : List Nat).all fun c =>
      let s := at_ [0x2C] 0 65534 [(1, 2)] [.char c, .fail]
      s.tape.wf && decide (s.ptr.toNat < 65535) && decide (s.input = .char c :: [.fail])) = true ∧
    ∃ t, Instr.nop 0 ≠ .inp ∧ exec (.nop 0) (at_ [0] 0 0 [] [.char 1]) = .next t :=
  ⟨by decide, _, by decide, rfl⟩

theorem witness_InFailureRaisesInputError :
    (at_ [0x2C] 0 0 [] [.fail, .char 1]).input = .fail :: [.char 1] := by decide

theorem witness_InWaitsForAnAnswer :
    let s := at_ [0x2C] 0 0 [] []
    s.input = [] ∧ s.status = .running ∧ s.prog[s.ip]? = some 0x2C := by decide

theorem witness_LoopsEntersSkipsOrFaults :
    let s := at_ [0x5B] 0 0 [(0, 0x8000)] []
    let s' := at_ [0x5B, 0x5D] 0 65534 [] []
    let s'' := at_ [0x5B] 0 0 [] []
    (s.ptr.toNat < 65535 ∧ (s.tape.read s.ptr.toNat).toInt ≠ 0) ∧
    (s'.ptr.toNat < 65535 ∧ (s'.tape.read s'.ptr.toNat).toInt = 0 ∧ matchFwd s'.prog s'.ip = some 1) ∧
    s''.ptr.toNat < 65535 ∧ (s''.tape.read s''.ptr.toNat).toInt = 0 ∧ matchFwd s''.prog s''.ip = none := by decide

theorem witness_LoopeReturnsToItsPartnerOrFaults :
    matchBwd (at_ [0x5B, 0x5D] 1 0 [] []).prog 1 = some 0 ∧ matchBwd (at_ [0x5D] 0 0 [] []).prog 0 = none := by decide

theorem witness_CmtSkipsToTheNextNewline :
    let s := at_ [0x23, 0x0A] 0 0 [] []
    let s' := at_ [0x2B, 0x23] 1 0 [] []
    s.ip < s.prog.length ∧ s'.ip < s'.prog.length := by decide

theorem witness_CommentOnTheLastLineHalts :
    let s := at_ [0x0A, 0x23, 0x5B] 1 0 [] []
    s.status = .running ∧ s.prog[s.ip]? = some 0x23 ∧ ∀ k, s.ip < k → s.prog[k]? ≠ some 0x0A := by
  refine ⟨by decide, by decide, fun k hk => ?_⟩
  match k, hk with
  | 2, _ => decide
  | k + 3, _ => simp [at_]

theorem witness_NopOnlyAdvances :
    ([0x00, 0x22, 0x24, 0x2A, 0x2F, 0x3B, 0x3D, 0x3F, 0x5A, 0x5C, 0x5E, 0xFF] : List Byte).all
      (fun b => !([0x2B, 0x2D, 0x3C, 0x3E, 0x2E, 0x2C, 0x5B, 0x5D, 0x23] : List Byte).contains b) = true := by decide

theorem witness_ExcludedPatternsStopByName :
    (at_ [0x2C] 0 0xFFFF [] [.char 1]).ptr = 0xFFFF ∧ (at_ [0x2C] 0 0xFFFF [] [.char 1]).input = .char 1 :: [] ∧
    (at_ [0x2B] 1 0 [] []).status = .running ∧ (at_ [0x2B] 1 0 [] []).prog.length ≤ (at_ [0x2B] 1 0 [] []).ip := by
  decide

/-- For the scans' closed forms and failures: a first and a last index, with a partner and without one. -/
theorem witness_scan_statements :
    let p : List Byte := [0x5B, 0x5B, 0x5D, 0x5D, 0x5D]
    0 < p.length ∧ matchFwd p 0 = some 3 ∧ 4 < p.length ∧ matchBwd p 4 = none ∧ matchFwd p 4 = none ∧
    matchBwd p 3 = some 0 ∧ p[0]? = some 0x5B ∧ p[3]? = some 0x5D := by decide

theorem witness_ScansAreCommentBlind :
    List.Forall₂ SameToScan [0x23, 0x5B, 0x0A, 0x5D] [0x2B, 0x5B, 0x00, 0x5D] := by
  refine .cons ?_ (.cons ?_ (.cons ?_ (.cons ?_ .nil))) <;> unfold SameToScan <;> decide

/-- With the `]` in the middle of the program and at its end. -/
theorem witness_LoopEndThenZeroTestLeavesTheLoop :
    let s := at_ [0x5B, 0x5D] 1 0 [] []
    let s' := at_ [0x5B, 0x2B, 0x5D, 0x00] 2 65534 [] []
    (s.status = .running ∧ s.ptr.toNat < 65535 ∧ s.prog[s.ip]? = some 0x5D ∧ matchBwd s.prog s.ip = some 0 ∧
      (s.tape.read s.ptr.toNat).toInt = 0) ∧
    s'.status = .running ∧ s'.ptr.toNat < 65535 ∧ s'.prog[s'.ip]? = some 0x5D ∧ matchBwd s'.prog s'.ip = some 0 ∧
      (s'.tape.read s'.ptr.toNat).toInt = 0 := by decide

/-- A step that raises `MalformedProgramError` for either bracket, and one that does not. -/
theorem witness_MalformedErrorExactlyWhenAScanFails :
    (∃ t, (at_ [0x5B] 0 0 [] []).prog[0]? = some 0x5B ∧ step (at_ [0x5B] 0 0 [] []) = .next t ∧
      t.status = .faultMalformed) ∧
    (∃ t, (at_ [0x5D] 0 0 [] []).prog[0]? = some 0x5D ∧ step (at_ [0x5D] 0 0 [] []) = .next t ∧
      t.status = .faultMalformed) ∧
    ∃ t, (at_ [0x5B] 0 0 [(0, 1)] []).prog[0]? = some 0x5B ∧ step (at_ [0x5B] 0 0 [(0, 1)] []) = .next t ∧
      t.status = .halted :=
  ⟨⟨_, rfl, rfl, rfl⟩, ⟨_, rfl, rfl, rfl⟩, ⟨_, rfl, rfl, rfl⟩⟩

theorem witness_InputErrorExactlyWhenTheSourceFails :
    (∃ t, (at_ [0x2C] 0 0 [] [.fail]).prog[0]? = some 0x2C ∧ step (at_ [0x2C] 0 0 [] [.fail]) = .next t ∧
      t.status = .faultInput) ∧
    ∃ t, (at_ [0x2C] 0 0 [] [.char 0]).prog[0]? = some 0x2C ∧ step (at_ [0x2C] 0 0 [] [.char 0]) = .next t ∧
      t.status = .halted :=
  ⟨⟨_, rfl, rfl, rfl⟩, ⟨_, rfl, rfl, rfl⟩⟩

theorem witness_ErrorsArePrecise :
    (∃ t, step (at_ [0x2C] 0 0 [] [.fail]) = .next t ∧ t.status = .faultInput) ∧
    ∃ t, step (at_ [0x5D] 0 0 [] []) = .next t ∧ t.status = .faultMalformed :=
  ⟨⟨_, rfl, rfl⟩, ⟨_, rfl, rfl⟩⟩

/-- For the statements about every step from a state with the invariant: steps that go on, that halt, that raise each
error, and that wait. -/
theorem witness_steps_with_invariant :
    (∃ t, (at_ [0x2B, 0x2B] 0 65534 [(65534, 0xFFFF)] []).Inv ∧
      step (at_ [0x2B, 0x2B] 0 65534 [(65534, 0xFFFF)] []) = .next t ∧ t.status = .running) ∧
    (∃ t, (at_ [0x2E] 0 0 [] []).Inv ∧ step (at_ [0x2E] 0 0 [] []) = .next t ∧ t.status = .halted) ∧
    (∃ t, (at_ [0x2C] 0 0 [] [.fail]).Inv ∧ step (at_ [0x2C] 0 0 [] [.fail]) = .next t ∧ t.status = .faultInput) ∧
    (∃ t, (at_ [0x5D] 0 0 [] []).Inv ∧ step (at_ [0x5D] 0 0 [] []) = .next t ∧ t.status = .faultMalformed) ∧
    ∃ t, (at_ [0x2C] 0 0 [] []).Inv ∧ step (at_ [0x2C] 0 0 [] []) = .next t ∧ t.status = .running :=
  ⟨⟨_, by decide, rfl, rfl⟩, ⟨_, by decide, rfl, rfl⟩, ⟨_, by decide, rfl, rfl⟩, ⟨_, by decide, rfl, rfl⟩,
    ⟨_, by decide, rfl, rfl⟩⟩

theorem witness_HostRequestsKeepInvariant :
    ∃ t, (create [0x5D]).Inv ∧ runRequest [.fail] (create [0x5D]) = .next t :=
  ⟨_, by decide, rfl⟩

/-- A run of the machine that is refused, and one that is not. -/
theorem witness_NoRunFaults :
    State.reset.Inv ∧ (∃ r, Sys2Proof.core.run 1 State.reset = .refused r) ∧
    (at_ [0x2B] 0 0 [] []).Inv ∧ ∃ t, Sys2Proof.core.run 1 (at_ [0x2B] 0 0 [] []) = .next t :=
  ⟨by decide, ⟨_, rfl⟩, by decide, ⟨_, rfl⟩⟩

theorem witness_OnlyTheActiveCellChanges :
    (∃ t, (at_ [0x2B] 0 1 [(0, 4)] []).tape.wf = true ∧ (at_ [0x2B] 0 1 [(0, 4)] []).prog[0]? = some 0x2B ∧
      step (at_ [0x2B] 0 1 [(0, 4)] []) = .next t) ∧
    ∃ t, (at_ [0x3C] 0 1 [(0, 4)] []).tape.wf = true ∧ (at_ [0x3C] 0 1 [(0, 4)] []).prog[0]? = some 0x3C ∧
      step (at_ [0x3C] 0 1 [(0, 4)] []) = .next t :=
  ⟨⟨_, by decide, rfl, rfl⟩, ⟨_, by decide, rfl, rfl⟩⟩

theorem witness_OnlyInReadsTheInput :
    ∃ t, (at_ [0x2E] 0 0 [] [.char 3]).prog[0]? = some 0x2E ∧ (0x2E : Byte) ≠ 0x2C ∧
      step (at_ [0x2E] 0 0 [] [.char 3]) = .next t :=
  ⟨_, rfl, by decide, rfl⟩

theorem witness_NopsRunToTheEnd :
    let s := at_ [0x5D, 0x00, 0x0A] 1 0 [] []
    s.status = .running ∧ s.ip < s.prog.length ∧ ∀ k b, s.ip ≤ k → s.prog[k]? = some b → decode b = .nop b := by
  refine ⟨by decide, by decide, fun k b hk hb => ?_⟩
  match k, hk with
  | 1, _ => cases hb; decide
  | 2, _ => cases hb; decide
  | k + 3, _ => simp [at_] at hb

theorem witness_IncAndDecAreInverse :
    let s := at_ [0x2B, 0x2D] 0 65534 [(0, 1), (65534, 0x7FFF)] []
    s.tape.wf = true ∧ s.ptr.toNat < 65535 := by decide

theorem witness_CanonicalTapesThatReadAlikeAreEqual :
    let m : Memory := [(0, 1), (65534, 2)]
    m.wf = true ∧ ∀ k, m.read k = m.read k := ⟨by decide, fun _ => rfl⟩

/-- A tape out of order, one with a zero listed, and one with an index that does not exist are not canonical. -/
theorem test_wf_refuses :
    Memory.wf [(1, 1), (0, 1)] = false ∧ Memory.wf [(0, 0)] = false ∧ Memory.wf [(65535, 1)] = false := by decide

theorem witness_create_of_bytes : ([0x00] : List Byte) ≠ [] ∧ (0 : Nat) < 65535 ∧ (65534 : Nat) < 65535 := by decide

theorem witness_RunStartsOnlyAReadyMachine :
    (create [0x2B]).status = .ready ∧ State.reset.status ≠ .ready := by decide

/-- Steps that yield no result yet, the normal return, and each of the two errors of `run`. -/
theorem witness_CallerReadsTheResultFromStatus :
    (∃ t, step (at_ [0x2B, 0x2B] 0 0 [] []) = .next t ∧ callerResult t = none) ∧
    (∃ t, step (at_ [0x2B] 0 0 [] []) = .next t ∧ callerResult t = some .returned) ∧
    (∃ t, step (at_ [0x2C] 0 0 [] [.fail]) = .next t ∧ callerResult t = some (.error .input)) ∧
    ∃ t, step (at_ [0x5D] 0 0 [] []) = .next t ∧ callerResult t = some (.error .malformedProgram) :=
  ⟨⟨_, rfl, rfl⟩, ⟨_, rfl, rfl⟩, ⟨_, rfl, rfl⟩, ⟨_, rfl, rfl⟩⟩

theorem witness_StepEffects :
    ∃ t, step (at_ [0x2E, 0x2C] 0 0 [] [.char 1]) = .next t ∧ t.outTrace = [0] ∧ t.input = [.char 1] :=
  ⟨_, rfl, rfl, rfl⟩

end Sys2Proof.Tests
end

section
/-! PROOFS. Scope (`00_scope.md`): the output is only ever written (R8, R33). A state with an earlier output put before
its own is compared with the state itself, first through the operations, then through `exec`, then through `step`. -/

namespace Sys2Proof.Machine

/-- The same machine, with `earlier` standing before its `OutTrace`. -/
def State.precedeOutput (earlier : List Cell) (s : State) : State :=
  { s with outTrace := earlier ++ s.outTrace }

/-- `OUT` appends at the end, so it does not matter what stands in front (R110). -/
theorem State.emit_precedeOutput (earlier : List Cell) (s : State) (v : Cell) :
    (s.precedeOutput earlier).emit v = (s.emit v).precedeOutput earlier := by
  simp only [State.emit, State.precedeOutput, List.append_assoc]

/-- The halt test looks at `STATUS`, `IP` and `PLEN` only (R84). -/
theorem haltIfDone_precedeOutput (earlier : List Cell) (s : State) :
    haltIfDone (s.precedeOutput earlier) = (haltIfDone s).precedeOutput earlier := by
  unfold haltIfDone
  rw [apply_ite (State.precedeOutput earlier)]
  rfl

/-- Every instruction carries an earlier output through unread. `OUT` is the one that needs an argument: no other
instruction touches `OutTrace`, so there the two next states agree by computation. -/
theorem exec_precedeOutput {i : Instr} {s t : State} (earlier : List Cell) (h : exec i s = .next t) :
    exec i (s.precedeOutput earlier) = .next (t.precedeOutput earlier) := by
  cases i with
  | inc =>
    obtain ⟨hptr, rfl⟩ := exec_inc_next.mp h
    exact exec_inc_next.mpr ⟨hptr, rfl⟩
  | dec =>
    obtain ⟨hptr, rfl⟩ := exec_dec_next.mp h
    exact exec_dec_next.mpr ⟨hptr, rfl⟩
  | left =>
    obtain rfl := exec_left_next.mp h
    exact exec_left_next.mpr rfl
  | right =>
    obtain rfl := exec_right_next.mp h
    exact exec_right_next.mpr rfl
  | out =>
    obtain ⟨hptr, rfl⟩ := exec_out_next.mp h
    exact exec_out_next.mpr ⟨hptr, congrArg State.advance (State.emit_precedeOutput earlier s _)⟩
  | inp =>
    refine exec_inp_next.mpr ?_
    obtain ⟨hnone, rfl⟩ | ⟨rest, hfail, rfl⟩ | ⟨c, rest, hchar, hptr, rfl⟩ := exec_inp_next.mp h
    · exact .inl ⟨hnone, rfl⟩
    · exact .inr (.inl ⟨rest, hfail, rfl⟩)
    · exact .inr (.inr ⟨c, rest, hchar, hptr, rfl⟩)
  | loops =>
    obtain ⟨hptr, hcases⟩ := exec_loops_next.mp h
    refine exec_loops_next.mpr ⟨hptr, ?_⟩
    obtain ⟨hne, rfl⟩ | ⟨hzero, m, hm, rfl⟩ | ⟨hzero, hm, rfl⟩ := hcases
    · exact .inl ⟨hne, rfl⟩
    · exact .inr (.inl ⟨hzero, m, hm, rfl⟩)
    · exact .inr (.inr ⟨hzero, hm, rfl⟩)
  | loope =>
    refine exec_loope_next.mpr ?_
    obtain ⟨m, hm, rfl⟩ | ⟨hm, rfl⟩ := exec_loope_next.mp h
    · exact .inl ⟨m, hm, rfl⟩
    · exact .inr ⟨hm, rfl⟩
  | cmt =>
    obtain rfl := exec_cmt_next.mp h
    exact exec_cmt_next.mpr rfl
  | nop b =>
    obtain rfl := exec_nop_next.mp h
    exact exec_nop_next.mpr rfl

/-- A step carries an earlier output through unread. -/
theorem step_precedeOutput {s t : State} (earlier : List Cell) (h : step s = .next t) :
    step (s.precedeOutput earlier) = .next (t.precedeOutput earlier) := by
  obtain ⟨hrun, b, u, hb, hu, rfl⟩ := step_next h
  have hfetch : step (s.precedeOutput earlier) = haltTest (exec (decode b) (s.precedeOutput earlier)) :=
    step_of_fetch hrun hb
  rw [hfetch, exec_precedeOutput earlier hu, haltTest_next, haltIfDone_precedeOutput]

/-- Settles O42: `precedeOutput` is the change the statement makes on both sides of the step. -/
theorem noStepReadsTheOutput : Obligations.NoStepReadsTheOutput :=
  fun _ _ earlier h => step_precedeOutput earlier h

end Sys2Proof.Machine
end

section
/-! SUPPORT. What an instruction can do, in four kinds, and what a step can do; `10_state.md` is then read off these two
inversions. -/

namespace Sys2Proof.Machine

/-! ### Decoding -/

/-- The byte decoded is the encoding of what it decodes to (R61). -/
theorem encode_decode (b : Byte) : encode (decode b) = b := by
  unfold decode
  split_ifs <;> simp only [encode, *]

/-- The only byte of an instruction is its encoding. -/
theorem eq_encode_of_decode {b : Byte} {i : Instr} (h : decode b = i) : b = encode i :=
  h ▸ (encode_decode b).symm

/-! ### What an instruction does -/

/-- Where `PTR` names no cell, an access faults by name (log 7). -/
theorem atActiveCell_of_not_lt {s : State} (h : ¬ s.ptr.toNat < Config.tapeLen) (body : Nat → Result) :
    atActiveCell s body = .fault (.noSuchCell s.ptr) :=
  if_neg h

/-- The comment scan never passes `PLEN` (R140, R141). -/
theorem skipLine_le (bytes : List Byte) (j : Nat) : skipLine bytes j ≤ j + bytes.length := by
  induction bytes generalizing j with
  | nil => simp
  | cons b rest ih =>
    have hrest := ih (j + 1)
    rw [skipLine_cons, List.length_cons]
    split <;> omega

/-- The forward scan finds an index among the bytes it reads (R127). -/
theorem scanFwd_lt {bytes : List Byte} {j depth m : Nat} (h : scanFwd bytes j depth = some m) :
    m < j + bytes.length := by
  induction bytes generalizing j depth with
  | nil => simp at h
  | cons b rest ih =>
    rw [scanFwd_cons] at h
    rw [List.length_cons]
    split at h
    · obtain rfl := Option.some.inj h
      omega
    · have hrest := ih h
      omega

/-- The backward scan finds an index among the bytes it reads (R130). -/
theorem scanBwd_lt {bytes : List Byte} {depth m : Nat} (h : scanBwd bytes depth = some m) : m < bytes.length := by
  induction bytes generalizing depth with
  | nil => simp at h
  | cons b rest ih =>
    rw [scanBwd_cons] at h
    rw [List.length_cons]
    split at h
    · obtain rfl := Option.some.inj h
      omega
    · have hrest := ih h
      omega

/-- A forward partner is a program index. -/
theorem matchFwd_lt {prog : List Byte} {i m : Nat} (hi : i < prog.length) (h : matchFwd prog i = some m) :
    m < prog.length := by
  have hm := scanFwd_lt h
  rw [List.length_drop] at hm
  omega

/-- A backward partner is a program index. -/
theorem matchBwd_lt {prog : List Byte} {i m : Nat} (h : matchBwd prog i = some m) : m < prog.length := by
  have hm := scanBwd_lt h
  rw [List.length_reverse, List.length_take] at hm
  omega

/-- The four kinds of thing an instruction at an index below `PLEN` can do to the state. -/
inductive Effect (i : Instr) (s : State) : State → Prop
  /-- Only `PTR` and `IP` are written, or nothing at all, as by an `IN` that waits. -/
  | move (p : Ptr) (j : Nat) (hp : p = s.ptr ∨ p.toNat < Config.tapeLen) (hj : j ≤ s.prog.length) :
      Effect i s ((s.setPtr p).jump j)
  /-- The active cell is written, by `IN` with a character consumed. -/
  | store (as : List Answer) (v : Cell) (hptr : s.ptr.toNat < Config.tapeLen)
      (hi : i = .inc ∨ i = .dec ∨ i = .inp) (has : as = s.input ∨ ∃ c, s.input = .char c :: as) :
      Effect i s ((s.setInput as).setCell s.ptr.toNat v).advance
  /-- The active cell's value is output. -/
  | emit : Effect i s (s.emit (s.tape.read s.ptr.toNat)).advance
  /-- An error is raised: `InputError` by `IN`, `MalformedProgramError` by a bracket. -/
  | raise (e : MachineError)
      (he : (e = .input ∧ i = .inp) ∨ (e = .malformedProgram ∧ (i = .loops ∨ i = .loope))) :
      Effect i s (Machine.raise e s)

/-- Going to the next index is a move, and that index is at most `PLEN`. -/
theorem Effect.of_advance {i : Instr} {s : State} (hip : s.ip < s.prog.length) : Effect i s s.advance :=
  .move s.ptr (s.ip + 1) (.inl rfl) hip

/-- Going to an index up to `PLEN` is a move. -/
theorem Effect.of_jump {i : Instr} {s : State} {j : Nat} (hj : j ≤ s.prog.length) : Effect i s (s.jump j) :=
  .move s.ptr j (.inl rfl) hj

/-- Every instruction has an effect of one of the four kinds. -/
theorem exec_effect {i : Instr} {s u : State} (hip : s.ip < s.prog.length) (h : exec i s = .next u) :
    Effect i s u := by
  cases i with
  | inc =>
    obtain ⟨hptr, rfl⟩ := exec_inc_next.mp h
    exact .store s.input _ hptr (by simp) (.inl rfl)
  | dec =>
    obtain ⟨hptr, rfl⟩ := exec_dec_next.mp h
    exact .store s.input _ hptr (by simp) (.inl rfl)
  | left =>
    obtain rfl := exec_left_next.mp h
    exact .move (ptrLeft s.ptr) (s.ip + 1) (.inr (ptrLeft_lt _)) hip
  | right =>
    obtain rfl := exec_right_next.mp h
    exact .move (ptrRight s.ptr) (s.ip + 1) (.inr (ptrRight_lt _)) hip
  | out =>
    obtain ⟨-, rfl⟩ := exec_out_next.mp h
    exact .emit
  | inp =>
    obtain ⟨-, rfl⟩ | ⟨_, -, rfl⟩ | ⟨c, rest, hchar, hptr, rfl⟩ := exec_inp_next.mp h
    · exact .of_jump hip.le
    · exact .raise .input (by simp)
    · exact .store rest _ hptr (by simp) (.inr ⟨c, hchar⟩)
  | loops =>
    obtain ⟨-, ⟨-, rfl⟩ | ⟨-, m, hm, rfl⟩ | ⟨-, -, rfl⟩⟩ := exec_loops_next.mp h
    · exact .of_advance hip
    · exact .of_jump (matchFwd_lt hip hm)
    · exact .raise .malformedProgram (by simp)
  | loope =>
    obtain ⟨m, hm, rfl⟩ | ⟨-, rfl⟩ := exec_loope_next.mp h
    · exact .of_jump (matchBwd_lt hm).le
    · exact .raise .malformedProgram (by simp)
  | cmt =>
    obtain rfl := exec_cmt_next.mp h
    refine .of_jump ((skipLine_le _ _).trans ?_)
    rw [List.length_drop]
    omega
  | nop b =>
    obtain rfl := exec_nop_next.mp h
    exact .of_advance hip

/-! ### What a step does -/

/-- The halt test leaves a state that is not running as it is. -/
theorem haltIfDone_of_ne_running {s : State} (h : s.status ≠ .running) : haltIfDone s = s :=
  if_neg fun hdone => h hdone.1

/-- A step is the effect of the instruction at an index below `PLEN`, followed by the halt test. -/
theorem step_effect {s t : State} (h : step s = .next t) :
    s.status = .running ∧ s.ip < s.prog.length ∧
      ∃ b u, s.prog[s.ip]? = some b ∧ Effect (decode b) s u ∧ t = haltIfDone u := by
  obtain ⟨hrun, b, u, hb, hu, rfl⟩ := step_next h
  obtain ⟨hip, -⟩ := List.getElem?_eq_some_iff.mp hb
  exact ⟨hrun, hip, b, u, hb, exec_effect hip hu, rfl⟩

/-- No step changes the program (R29, R55). -/
theorem step_prog {s t : State} (h : step s = .next t) : t.prog = s.prog := by
  obtain ⟨-, -, b, u, -, heff, rfl⟩ := step_effect h
  cases heff <;> rw [haltIfDone_prog] <;> rfl

/-- `PTR` goes on naming a cell (R24). -/
theorem step_ptr_lt {s t : State} (hptr : s.ptr.toNat < Config.tapeLen) (h : step s = .next t) :
    t.ptr.toNat < Config.tapeLen := by
  obtain ⟨-, -, b, u, -, heff, rfl⟩ := step_effect h
  rw [haltIfDone_ptr]
  cases heff with
  | move p j hp hj =>
    obtain rfl | hp := hp
    · exact hptr
    · exact hp
  | store | emit | raise => exact hptr

/-- The tape stays as it is, or takes one value at `PTR`, which only `INC`, `DEC` and `IN` write (R42). -/
theorem step_tape {s t : State} {b : Byte} (hb : s.prog[s.ip]? = some b) (h : step s = .next t) :
    t.tape = s.tape ∨
      s.ptr.toNat < Config.tapeLen ∧ (b = opInc ∨ b = opDec ∨ b = opIn) ∧
        ∃ v, t.tape = s.tape.write s.ptr.toNat v := by
  obtain ⟨-, -, b', u, hb', heff, rfl⟩ := step_effect h
  obtain rfl : b = b' := Option.some.inj (hb.symm.trans hb')
  rw [haltIfDone_tape]
  cases heff with
  | move | emit | raise => exact .inl rfl
  | store as v hptr hi has =>
    exact .inr ⟨hptr, hi.imp eq_encode_of_decode (.imp eq_encode_of_decode eq_encode_of_decode), v, rfl⟩

/-- The tape stays canonical. -/
theorem step_tape_wf {s t : State} (hwf : s.tape.wf = true) (h : step s = .next t) : t.tape.wf = true := by
  obtain ⟨-, -, b, -, hb, -⟩ := step_effect h
  obtain heq | ⟨hptr, -, v, heq⟩ := step_tape hb h
  · rw [heq, hwf]
  · rw [heq, Memory.write_wf hwf hptr]

/-- A state in which the machine goes on, or in which it has just halted (R28, R84). -/
def State.GoesOnOrHalts (t : State) : Prop :=
  (t.status = .running ∧ t.ip < t.prog.length) ∨ (t.status = .halted ∧ t.ip = t.prog.length)

/-- The halt test on a running state with `IP` up to `PLEN` (R84). -/
theorem haltIfDone_goesOnOrHalts {u : State} (hrun : u.status = .running) (hip : u.ip ≤ u.prog.length) :
    (haltIfDone u).GoesOnOrHalts := by
  simp only [State.GoesOnOrHalts, haltIfDone_ip, haltIfDone_prog, haltIfDone_status]
  obtain hlt | heq := hip.lt_or_eq
  · exact .inl ⟨by rw [if_neg fun hdone => hlt.ne hdone.2, hrun], hlt⟩
  · exact .inr ⟨if_pos ⟨hrun, heq⟩, heq⟩

/-- The outcomes of a step: the machine goes on or halts, or an instruction that raises an error has raised it (R28,
R84, R156). -/
theorem step_outcome {s t : State} (h : step s = .next t) :
    t.GoesOnOrHalts ∨
      (t = raise .input s ∧ s.prog[s.ip]? = some opIn) ∨
      (t = raise .malformedProgram s ∧ (s.prog[s.ip]? = some opLoops ∨ s.prog[s.ip]? = some opLoope)) := by
  obtain ⟨hrun, hip, b, u, hb, heff, rfl⟩ := step_effect h
  have hbyte {i : Instr} (hi : decode b = i) : s.prog[s.ip]? = some (encode i) := eq_encode_of_decode hi ▸ hb
  cases heff with
  | move p j hp hj => exact .inl (haltIfDone_goesOnOrHalts hrun hj)
  | store | emit => exact .inl (haltIfDone_goesOnOrHalts hrun hip)
  | raise e he =>
    obtain ⟨rfl, hi⟩ | ⟨rfl, hi⟩ := he
    · exact .inr (.inl ⟨haltIfDone_of_ne_running (by simp [MachineError.status]), hbyte hi⟩)
    · exact .inr (.inr ⟨haltIfDone_of_ne_running (by simp [MachineError.status]), hi.imp hbyte hbyte⟩)

/-- What `STATUS` says of the other elements holds after every step. -/
theorem step_statusInv {s t : State} (h : step s = .next t) : t.StatusInv := by
  obtain ⟨-, hip, -⟩ := step_effect h
  have hprog : t.prog ≠ [] := by
    rw [step_prog h]
    exact List.ne_nil_of_length_pos (by omega)
  unfold State.StatusInv
  obtain (⟨hst, hlt⟩ | ⟨hst, heq⟩) | ⟨rfl, hbyte⟩ | ⟨rfl, hbyte⟩ := step_outcome h
  · simp [hst, hlt, hprog]
  · simp [hst, heq, hprog]
  · simpa [MachineError.status, hbyte] using hprog
  · simpa [MachineError.status, hbyte] using hprog

/-- `IP` stays an index 0 to `PLEN` (R25). -/
theorem step_ip_le {s t : State} (h : step s = .next t) : t.ip ≤ t.prog.length := by
  obtain ⟨-, hip, -⟩ := step_effect h
  obtain (⟨-, hlt⟩ | ⟨-, heq⟩) | ⟨rfl, -⟩ | ⟨rfl, -⟩ := step_outcome h
  · exact hlt.le
  · exact heq.le
  · exact hip.le
  · exact hip.le

end Sys2Proof.Machine
end

section
/-! PROOFS. State (`10_state.md`): the invariant, what a step can change, the canonical tape, `create` and the status
register. -/

namespace Sys2Proof.Machine

/-! ### The whole machine -/

/-- Settles O32: part by part, from what a step does to the tape, to `PTR`, to `IP` and to `STATUS`. -/
theorem stepKeepsInvariant : Obligations.StepKeepsInvariant := by
  rintro s t ⟨hwf, hptr, -, -⟩ h
  exact ⟨step_tape_wf hwf h, step_ptr_lt hptr h, step_ip_le h, step_statusInv h⟩

/-- Settles O37: the invariant is not needed, the outcomes of a step are these from every state. -/
theorem statusTransitionsOfAStep : Obligations.StatusTransitionsOfAStep := by
  intro s t _ h
  obtain ⟨hrun, -⟩ := step_effect h
  refine ⟨hrun, ?_⟩
  obtain (hon | hhalt) | ⟨rfl, -⟩ | ⟨rfl, -⟩ := step_outcome h
  · exact .inl hon
  · exact .inr (.inl hhalt)
  · exact .inr (.inr (.inl ⟨rfl, rfl⟩))
  · exact .inr (.inr (.inr ⟨rfl, rfl⟩))

/-- Settles O38: of the kinds of effect only `emit` appends to `OutTrace` and only `store` consumes an answer. -/
theorem programFixedAndStreamsMonotone : Obligations.ProgramFixedAndStreamsMonotone := by
  intro s t h
  refine ⟨step_prog h, ?_⟩
  obtain ⟨-, -, b, u, -, heff, rfl⟩ := step_effect h
  rw [haltIfDone_outTrace, haltIfDone_input]
  cases heff with
  | move | raise => exact ⟨.inl rfl, .inl rfl⟩
  | store as v hptr hi has => exact ⟨.inl rfl, has⟩
  | emit => exact ⟨.inr rfl, .inl rfl⟩

/-- Settles O39: the tape changes by at most one write at `PTR`, and a write changes what that index alone reads. -/
theorem onlyTheActiveCellChanges : Obligations.OnlyTheActiveCellChanges := by
  intro s t b hwf hb h
  obtain heq | ⟨-, hbyte, v, heq⟩ := step_tape hb h
  · simp [heq]
  · refine ⟨fun k hk => ?_, fun hinc hdec hin => ?_⟩
    · rw [heq, Memory.read_write hwf, if_neg hk]
    · obtain rfl | rfl | rfl := hbyte
      · exact absurd rfl hinc
      · exact absurd rfl hdec
      · exact absurd rfl hin

/-- Settles O21: an access to the active cell goes through `atActiveCell`, and 0xFFFF names no cell. -/
theorem excludedPatternsStopByName : Obligations.ExcludedPatternsStopByName := by
  refine ⟨fun s hptr => ?_, fun s hrun hip => ?_⟩
  · have hstop (body : Nat → Result) : atActiveCell s body = .fault (.noSuchCell 0xFFFF) := by
      rw [atActiveCell_of_not_lt (by rw [hptr]; decide), hptr]
    refine ⟨?_, fun c rest hin => ?_, ?_, ?_⟩
    · rintro i (rfl | rfl | rfl | rfl) <;>
        simp only [exec, execInc, execDec, updateActiveCell, execOut, execLoops, hstop]
    · simp only [exec, execInp, hin, hstop]
    · exact exec_left_next.mpr (by rw [hptr]; rfl)
    · exact exec_right_next.mpr (by rw [hptr]; rfl)
  · simp [step, hrun, fetch, hip]

/-! ### The canonical tape -/

@[simp] theorem Memory.read_cons_self (a : Nat) (v : Cell) (m : Memory) : Memory.read ((a, v) :: m) a = v :=
  if_pos rfl

/-- Where two canonical tapes read alike, the first listed index of the one is at most that of the other: the other's
reads other than 0, which no index before the first does. -/
theorem Memory.head_le_of_read_eq {lo lo' a a' : Nat} {v v' : Cell} {m m' : Memory}
    (hm : Memory.wfFrom lo ((a, v) :: m) = true) (hm' : Memory.wfFrom lo' ((a', v') :: m') = true)
    (hread : ∀ k, Memory.read ((a, v) :: m) k = Memory.read ((a', v') :: m') k) : a ≤ a' := by
  obtain ⟨-, ha, hv, htail⟩ := Memory.wfFrom_cons.mp hm
  obtain ⟨-, -, hv', -⟩ := Memory.wfFrom_cons.mp hm'
  by_contra hlt
  have hzero := Memory.read_of_lt (Memory.wfFrom_cons.mpr ⟨le_rfl, ha, hv, htail⟩) (Nat.lt_of_not_le hlt)
  exact hv' (by rw [← hzero, hread, Memory.read_cons_self])

/-- A canonical tape that lists a cell does not read alike with the tape that lists none. -/
theorem Memory.not_read_eq_zero {lo a : Nat} {v : Cell} {m : Memory}
    (hm : Memory.wfFrom lo ((a, v) :: m) = true) : ¬ ∀ k, Memory.read ((a, v) :: m) k = 0 := by
  obtain ⟨-, -, hv, -⟩ := Memory.wfFrom_cons.mp hm
  exact fun hread => hv (by rw [← hread a, Memory.read_cons_self])

/-- Two canonical tapes that read alike list the same pairs: they begin with the same one, and what follows it reads
alike again. -/
theorem Memory.eq_of_read_eq {lo : Nat} {m m' : Memory} (hm : m.wfFrom lo = true) (hm' : m'.wfFrom lo = true)
    (hread : ∀ k, m.read k = m'.read k) : m = m' := by
  induction m generalizing lo m' with
  | nil =>
    cases m' with
    | nil => rfl
    | cons p' m' => exact absurd (fun k => (hread k).symm) (Memory.not_read_eq_zero hm')
  | cons p m ih =>
    cases m' with
    | nil => exact absurd hread (Memory.not_read_eq_zero hm)
    | cons p' m' =>
      obtain ⟨a, v⟩ := p
      obtain ⟨a', v'⟩ := p'
      obtain rfl : a = a' :=
        (Memory.head_le_of_read_eq hm hm' hread).antisymm (Memory.head_le_of_read_eq hm' hm fun k => (hread k).symm)
      obtain rfl : v = v' := by simpa using hread a
      obtain ⟨-, -, -, htail⟩ := Memory.wfFrom_cons.mp hm
      obtain ⟨-, -, -, htail'⟩ := Memory.wfFrom_cons.mp hm'
      congr 1
      refine ih htail htail' fun k => ?_
      by_cases hk : a = k
      · rw [Memory.read_of_lt htail (by omega), Memory.read_of_lt htail' (by omega)]
      · simpa only [Memory.read_cons, if_neg hk] using hread k

/-- Settles O48: canonical means canonical from index 0 on. -/
theorem canonicalTapesThatReadAlikeAreEqual : Obligations.CanonicalTapesThatReadAlikeAreEqual :=
  fun _ _ => Memory.eq_of_read_eq

/-! ### Reset and `create` -/

/-- Settles O33: both parts are about the one fixed state, and are evaluated. -/
theorem resetHasInvariant : Obligations.ResetHasInvariant :=
  ⟨rfl, by decide⟩

/-- Settles O50: no bytes are the only ones `create` refuses. -/
theorem createMakesAReadyMachine : Obligations.CreateMakesAReadyMachine :=
  fun _ => create_of_ne_nil

/-- Settles O49: the fresh tape lists no cell. -/
theorem createZeroesEveryCell : Obligations.CreateZeroesEveryCell := by
  intro bytes hne k _
  rw [create_of_ne_nil hne, Memory.read_nil]

/-! ### The status register -/

/-- R27 read from code to value: the value of `STATUS` that a code stands for; 6 and 7 stand for none. -/
def Status.ofCode (c : BitVec 3) : Option Status :=
  [Status.ready, .running, .halted, .faultEmpty, .faultInput, .faultMalformed][c.toNat]?

/-- A value of `STATUS` is read back from its code. -/
theorem Status.ofCode_code (st : Status) : Status.ofCode st.code = some st := by
  cases st <;> rfl

/-- No two values of `STATUS` have one code. -/
theorem Status.code_injective : Function.Injective Status.code := fun st st' h =>
  Option.some.inj (by rw [← Status.ofCode_code, h, Status.ofCode_code])

/-- A code that stands for no value is never held. -/
theorem Status.code_ne_of_ofCode_eq_none {c : BitVec 3} (h : Status.ofCode c = none) (st : Status) : st.code ≠ c := by
  rintro rfl
  rw [Status.ofCode_code] at h
  cases h

/-- Settles O53: the codes can be read back, and 6 and 7 cannot. -/
theorem statusCodes : Obligations.StatusCodes :=
  ⟨rfl, rfl, rfl, rfl, rfl, rfl,
    fun st => ⟨Status.code_ne_of_ofCode_eq_none rfl st, Status.code_ne_of_ofCode_eq_none rfl st⟩,
    fun _ _ h => Status.code_injective h⟩

/-- Settles O54: the results of a step are those of its outcomes. -/
theorem callerReadsTheResultFromStatus : Obligations.CallerReadsTheResultFromStatus := by
  refine ⟨fun s => ?_, fun bytes => ?_, fun s t h => ?_⟩
  · cases hst : s.status <;> simp [callerResult, hst]
  · split
    next hnil => rw [hnil]; rfl
    next hne => rw [create_of_ne_nil hne]; rfl
  · obtain ⟨hrun, -⟩ := step_effect h
    refine ⟨by simp [callerResult, hrun], ?_⟩
    obtain (⟨hst, -⟩ | ⟨hst, -⟩) | ⟨rfl, -⟩ | ⟨rfl, -⟩ := step_outcome h
    · exact .inl (by simp [callerResult, hst])
    · exact .inr (.inl (by simp [callerResult, hst]))
    · exact .inr (.inr (.inl rfl))
    · exact .inr (.inr (.inr rfl))

end Sys2Proof.Machine
end

section
/-! PROOFS. Memory (`20_memory.md`): no access the spec excludes is ever met, in a step or in a run, and the instructions
that have no tape operand do not depend on the tape. -/

namespace Sys2Proof.Machine

/-- A running machine with a byte at `IP` and a cell at `PTR` completes its step: the fetch and every access have their
target (R41, R50). -/
theorem step_completes {s : State} (hrun : s.status = .running) (hip : s.ip < s.prog.length)
    (hptr : s.ptr.toNat < Config.tapeLen) : s.CanStep := by
  obtain ⟨u, hu⟩ := exec_completes hptr (decode s.prog[s.ip])
  refine ⟨haltIfDone u, ?_⟩
  rw [step_of_fetch hrun (List.getElem?_eq_getElem hip), hu, haltTest_next]

/-- Settles O35: the invariant puts `IP` below `PLEN` in `RUNNING`, and `PTR` at a cell. -/
theorem runningMachineAlwaysSteps : Obligations.RunningMachineAlwaysSteps := by
  rintro s ⟨-, hptr, -, -, hip, -⟩ hrun
  exact step_completes hrun (hip hrun) hptr

/-- A run from a state with the invariant completes in such a state, or is refused by a step asked for outside
`RUNNING` (R81). -/
theorem run_outcome (k : Nat) {s : State} (hs : s.Inv) :
    (∃ t : State, t.Inv ∧ Sys2Proof.core.run k s = .next t) ∨
      ∃ st, st ≠ .running ∧ Sys2Proof.core.run k s = .refused (Refusal.noStepEnabled st) := by
  induction k generalizing s with
  | zero => exact .inl ⟨s, hs, run_zero s⟩
  | succ k ih =>
    by_cases hrun : s.status = .running
    · obtain ⟨t, ht⟩ := runningMachineAlwaysSteps s hs hrun
      rw [run_succ_next ht]
      exact ih (stepKeepsInvariant s t hs ht)
    · exact .inr ⟨s.status, hrun, run_succ_refused hrun k⟩

/-- Settles O36: neither outcome of a run is a fault, and the refusal is the one named. -/
theorem noRunFaults : Obligations.NoRunFaults := by
  intro k s hs
  obtain ⟨t, -, hnext⟩ | ⟨st, hst, hrefused⟩ := run_outcome k hs
  · simp [hnext]
  · rw [hrefused]
    exact ⟨nofun, fun r hr => ⟨st, hst, (Host.Outcome.refused.inj hr).symm⟩⟩

/-- Settles O40: each next state is made from `Prog`, `IP` and `PTR` alone; `LOOPE` also chooses between its two by the
backward scan, which reads only the program. -/
theorem tapelessInstructionsIgnoreTheTape : Obligations.TapelessInstructionsIgnoreTheTape := by
  rintro s m i (rfl | rfl | rfl | rfl | ⟨b, rfl⟩)
  · exact ⟨_, exec_left_next.mpr rfl, rfl, exec_left_next.mpr rfl⟩
  · exact ⟨_, exec_right_next.mpr rfl, rfl, exec_right_next.mpr rfl⟩
  · cases hpartner : matchBwd s.prog s.ip with
    | none =>
      exact ⟨_, exec_loope_next.mpr (.inr ⟨hpartner, rfl⟩), rfl, exec_loope_next.mpr (.inr ⟨hpartner, rfl⟩)⟩
    | some j =>
      exact ⟨_, exec_loope_next.mpr (.inl ⟨j, hpartner, rfl⟩), rfl, exec_loope_next.mpr (.inl ⟨j, hpartner, rfl⟩)⟩
  · exact ⟨_, exec_cmt_next.mpr rfl, rfl, exec_cmt_next.mpr rfl⟩
  · exact ⟨_, exec_nop_next.mpr rfl, rfl, exec_nop_next.mpr rfl⟩

end Sys2Proof.Machine
end

section
/-! PROOFS. Encoding (`30_encoding.md`): the nine named bytes are the only ones that do not decode to `NOP`, so decoding
and encoding are inverse between the bytes and the well-formed instructions, and so are listing and assembling between
the byte sequences and the lists of such instructions. -/

namespace Sys2Proof.Machine

/-! ### One byte -/

/-- Only the nine named bytes are refused to a `NOP` (R142). -/
@[simp] theorem wellFormed_nop_iff (b : Byte) : (Instr.nop b).wellFormed = true ↔ b ∉ namedBytes := by
  simp [Instr.wellFormed]

/-- A byte that no named instruction has selects `NOP` (R62, R64): any other instruction would have it as its byte. -/
theorem decode_of_not_mem_namedBytes {b : Byte} (h : b ∉ namedBytes) : decode b = .nop b := by
  cases hi : decode b with
  | nop c =>
    have hbc : b = c := eq_encode_of_decode hi
    rw [hbc]
  | _ =>
    obtain rfl := eq_encode_of_decode hi
    exact absurd (by decide) h

/-- None of the nine named bytes selects `NOP`. -/
theorem decode_ne_nop_of_mem_namedBytes {b : Byte} (h : b ∈ namedBytes) (c : Byte) : decode b ≠ .nop c := by
  simp only [namedBytes, List.mem_cons, List.not_mem_nil, or_false] at h
  obtain rfl | rfl | rfl | rfl | rfl | rfl | rfl | rfl | rfl := h <;> exact nofun

theorem decode_eq_nop_iff (b : Byte) : decode b = .nop b ↔ b ∉ namedBytes :=
  ⟨fun h hmem => decode_ne_nop_of_mem_namedBytes hmem b h, decode_of_not_mem_namedBytes⟩

/-- The named bytes are the gaps between the seven ranges of R62. -/
theorem not_mem_namedBytes_iff_ranges (b : Byte) : b ∉ namedBytes ↔
    b.toNat ≤ 0x22 ∨ (0x24 ≤ b.toNat ∧ b.toNat ≤ 0x2A) ∨ (0x2F ≤ b.toNat ∧ b.toNat ≤ 0x3B) ∨ b.toNat = 0x3D ∨
    (0x3F ≤ b.toNat ∧ b.toNat ≤ 0x5A) ∨ b.toNat = 0x5C ∨ 0x5E ≤ b.toNat := by
  simp only [namedBytes, List.mem_cons, List.not_mem_nil, or_false, ← BitVec.toNat_inj, BitVec.reduceToNat]
  omega

/-- Decoding gives no `NOP` with a named byte: where it gives a `NOP` at all, the byte is its own. -/
theorem wellFormed_decode (b : Byte) : (decode b).wellFormed = true := by
  cases hi : decode b with
  | nop c =>
    have hbc : b = c := eq_encode_of_decode hi
    exact (wellFormed_nop_iff c).mpr ((decode_eq_nop_iff c).mp (hbc ▸ hi))
  | _ => rfl

/-- The byte of a well-formed instruction decodes to it; only for `NOP` does that need the instruction well formed. -/
theorem decode_encode {i : Instr} (h : i.wellFormed = true) : decode (encode i) = i := by
  cases i with
  | nop b => exact decode_of_not_mem_namedBytes ((wellFormed_nop_iff b).mp h)
  | _ => rfl

/-- A table word of one byte is decoded as that byte (R70). -/
theorem decodeTableWord_toNat (b : Byte) : decodeTableWord 8 b.toNat = some (decode b) := by
  have hbytes : wordBytes (8 / 8) b.toNat = [b] := by simp [wordBytes]
  rw [decodeTableWord, hbytes]
  rfl

/-! ### Program texts -/

/-- One byte for each instruction, packed (R60, R68). -/
theorem assemble_eq_map (is : List Instr) : assemble is = is.map encode :=
  List.map_eq_flatMap.symm

/-- Listing undoes assembling, one instruction after the other. -/
theorem disassemble_assemble {is : List Instr} (h : ∀ i ∈ is, i.wellFormed = true) :
    disassemble (assemble is) = is := by
  induction is with
  | nil => rfl
  | cons i is ih =>
    obtain ⟨hi, his⟩ := List.forall_mem_cons.mp h
    calc disassemble (assemble (i :: is))
        = decode (encode i) :: disassemble (assemble is) := rfl
      _ = i :: is := by rw [decode_encode hi, ih his]

/-- Assembling undoes listing, one byte after the other. -/
theorem assemble_disassemble (bytes : List Byte) : assemble (disassemble bytes) = bytes := by
  induction bytes with
  | nil => rfl
  | cons b bytes ih =>
    calc assemble (disassemble (b :: bytes))
        = encode (decode b) :: assemble (disassemble bytes) := rfl
      _ = b :: bytes := by rw [encode_decode, ih]

/-! ### The statements -/

/-- Settles O4: the listing of the text has, at each index, the decoded byte of that index. -/
theorem programTextIsItsInstructions : Obligations.ProgramTextIsItsInstructions := by
  refine ⟨fun is h => ⟨disassemble_assemble h, by rw [assemble_eq_map, List.length_map], fun k => ?_⟩,
    assemble_disassemble⟩
  calc (assemble is)[k]?.map decode
      = (disassemble (assemble is))[k]? := List.getElem?_map.symm
    _ = is[k]? := by rw [disassemble_assemble h]

/-- Settles O1: the nine named bytes are evaluated, and the `NOP` bytes are the others. -/
theorem everyByteDecodesToItsClass : Obligations.EveryByteDecodesToItsClass :=
  ⟨rfl, rfl, rfl, rfl, rfl, rfl, rfl, rfl, rfl,
    fun b => (decode_eq_nop_iff b).trans (not_mem_namedBytes_iff_ranges b)⟩

/-- Settles O2: the encoding is the one byte, and it decodes back. -/
theorem encodedInstructionDecodesBack : Obligations.EncodedInstructionDecodesBack := by
  intro i h
  refine ⟨decode_encode h, rfl, ?_⟩
  calc decodeBytes (encodeBytes i)
      = .ok (decode (encode i), []) := rfl
    _ = .ok (i, []) := by rw [decode_encode h]

/-- Settles O3: decoding every byte loses nothing of it. -/
theorem decodedByteEncodesBack : Obligations.DecodedByteEncodesBack :=
  fun b => ⟨wellFormed_decode b, encode_decode b, decodeTableWord_toNat b⟩

end Sys2Proof.Machine
end

section
/-! PROOFS. Dispatch (`40_dispatch.md`): a step is the decoded instruction and the halt test; it is enabled in `RUNNING`
alone; it reads the input source only for an `IN`; and a program that has only `NOP`s left runs to its end. -/

namespace Sys2Proof.Machine

/-! ### When a step is enabled -/

/-- Where no step exists the answer names the status (R81; log 7). -/
theorem step_of_ne_running {s : State} (h : s.status ≠ .running) : step s = .refused (.noStepEnabled s.status) :=
  if_neg h

/-- A running machine with no byte at `IP` faults by name (log 7). -/
theorem step_of_fetch_none {s : State} (hrun : s.status = .running) (hb : s.prog[s.ip]? = none) :
    step s = .fault (.noProgramByte s.ip) := by
  simp [step, hrun, fetch, hb]

/-- The halt test refuses nothing of its own. -/
theorem haltTest_ne_refused {o : Result} {r : Refusal} (h : o ≠ .refused r) : haltTest o ≠ .refused r := by
  cases o with
  | next s => exact nofun
  | fault f => exact nofun
  | refused r' => exact h

/-- In `RUNNING` no step is refused: neither the fetch nor the instruction nor the halt test does so. -/
theorem step_ne_refused {s : State} (hrun : s.status = .running) (r : Refusal) : step s ≠ .refused r := by
  cases hb : s.prog[s.ip]? with
  | none =>
    rw [step_of_fetch_none hrun hb]
    exact nofun
  | some b =>
    rw [step_of_fetch hrun hb]
    exact haltTest_ne_refused (exec_ne_refused (decode b) s r)

/-! ### Other answers of the source -/

/-- The halt test does not look at the answers (R84). -/
theorem haltIfDone_setInput (as : List Answer) (s : State) :
    haltIfDone (s.setInput as) = (haltIfDone s).setInput as := by
  unfold haltIfDone
  rw [apply_ite fun u : State => u.setInput as]
  rfl

/-- Every instruction but `IN` does the same on any other answers and carries them through: what it reads, writes and
branches on is the rest of the state, which `setInput` leaves as it is. -/
theorem exec_setInput {i : Instr} {s t : State} (as : List Answer) (hi : i ≠ .inp) (h : exec i s = .next t) :
    exec i (s.setInput as) = .next (t.setInput as) := by
  cases i with
  | inp => exact absurd rfl hi
  | inc =>
    obtain ⟨hptr, rfl⟩ := exec_inc_next.mp h
    exact exec_inc_next.mpr ⟨hptr, rfl⟩
  | dec =>
    obtain ⟨hptr, rfl⟩ := exec_dec_next.mp h
    exact exec_dec_next.mpr ⟨hptr, rfl⟩
  | out =>
    obtain ⟨hptr, rfl⟩ := exec_out_next.mp h
    exact exec_out_next.mpr ⟨hptr, rfl⟩
  | loops =>
    obtain ⟨hptr, hcases⟩ := exec_loops_next.mp h
    refine exec_loops_next.mpr ⟨hptr, ?_⟩
    obtain ⟨hne, rfl⟩ | ⟨hzero, m, hm, rfl⟩ | ⟨hzero, hm, rfl⟩ := hcases
    · exact .inl ⟨hne, rfl⟩
    · exact .inr (.inl ⟨hzero, m, hm, rfl⟩)
    · exact .inr (.inr ⟨hzero, hm, rfl⟩)
  | loope =>
    refine exec_loope_next.mpr ?_
    obtain ⟨m, hm, rfl⟩ | ⟨hm, rfl⟩ := exec_loope_next.mp h
    · exact .inl ⟨m, hm, rfl⟩
    · exact .inr ⟨hm, rfl⟩
  | left | right | cmt | nop =>
    obtain rfl := Host.Outcome.next.inj h
    rfl

/-- A step at any byte but that of `IN` does the same on any other answers and carries them through. -/
theorem step_setInput {s t : State} {b : Byte} (as : List Answer) (hb : s.prog[s.ip]? = some b) (hne : b ≠ opIn)
    (h : step s = .next t) : step (s.setInput as) = .next (t.setInput as) := by
  obtain ⟨hrun, b', u, hb', hu, rfl⟩ := step_next h
  obtain rfl : b = b' := Option.some.inj (hb.symm.trans hb')
  have hnotIn : decode b ≠ .inp := fun hin => hne (eq_encode_of_decode hin)
  have hstep : step (s.setInput as) = haltTest (exec (decode b) (s.setInput as)) := step_of_fetch hrun hb
  rw [hstep, exec_setInput as hnotIn hu, haltTest_next, haltIfDone_setInput]

/-- A step at any byte but that of `IN` consumes no answer: with the answers it has, it carries those through. -/
theorem step_input_of_ne_opIn {s t : State} {b : Byte} (hb : s.prog[s.ip]? = some b) (hne : b ≠ opIn)
    (h : step s = .next t) : t.input = s.input := by
  have hcarried : step s = .next (t.setInput s.input) := step_setInput s.input hb hne h
  have ht : t = t.setInput s.input := Host.Outcome.next.inj (h.symm.trans hcarried)
  rw [ht, State.setInput_input]

/-! ### Nothing but `NOP`s -/

/-- From `IP` on every byte is a `NOP`. -/
def State.OnlyNopsLeft (s : State) : Prop :=
  ∀ k b, s.ip ≤ k → s.prog[k]? = some b → decode b = .nop b

/-- A `NOP` leaves only `NOP`s behind it, where there were only `NOP`s from it on. -/
theorem State.OnlyNopsLeft.advance {s : State} (h : s.OnlyNopsLeft) : s.advance.OnlyNopsLeft :=
  fun k b hk hb => h k b (Nat.le_of_succ_le hk) hb

/-- A step at a `NOP` goes to the next index and makes the halt test (R142, R84). -/
theorem step_nop {s : State} (hrun : s.status = .running) (hip : s.ip < s.prog.length) (hnops : s.OnlyNopsLeft) :
    step s = .next (haltIfDone s.advance) := by
  have hb : s.prog[s.ip]? = some s.prog[s.ip] := List.getElem?_eq_getElem hip
  rw [step_of_fetch hrun hb, hnops _ _ le_rfl hb, exec_nop_next.mpr rfl, haltTest_next]

/-- The run halts at `PLEN` after as many steps as there are bytes left, counted down: the last `NOP` halts the machine,
and one before it leaves it running with one byte less to go. -/
theorem run_nops {s : State} {n : Nat} (hrun : s.status = .running) (hlen : s.ip + (n + 1) = s.prog.length)
    (hnops : s.OnlyNopsLeft) :
    Sys2Proof.core.run (n + 1) s = .next ((s.jump s.prog.length).setStatus .halted) := by
  induction n generalizing s with
  | zero =>
    have hhalt : haltIfDone s.advance = s.advance.setStatus .halted := if_pos ⟨hrun, hlen⟩
    rw [run_succ_next (step_nop hrun (by omega) hnops), hhalt, run_zero, ← hlen]
    rfl
  | succ n ih =>
    have hip : s.advance.ip + (n + 1) = s.advance.prog.length := by
      rw [State.advance_ip, State.advance_prog]
      omega
    have hgoOn : haltIfDone s.advance = s.advance := if_neg fun hdone => by omega
    rw [run_succ_next (step_nop hrun (by omega) hnops), hgoOn]
    exact ih hrun hip hnops.advance

/-! ### The statements -/

/-- Settles O41: `setInput` is the change the statement makes on both sides of the step. -/
theorem onlyInReadsTheInput : Obligations.OnlyInReadsTheInput :=
  fun _ _ _ as hb hne h => ⟨step_input_of_ne_opIn hb hne h, step_setInput as hb hne h⟩

/-- Settles O43: with `IP` below `PLEN` there is at least one byte left to count down from. -/
theorem nopsRunToTheEnd : Obligations.NopsRunToTheEnd := by
  intro s hrun hip hnops
  obtain ⟨n, hn⟩ := Nat.exists_eq_add_of_lt hip
  have hleft : s.prog.length - s.ip = n + 1 := by omega
  rw [hleft]
  exact run_nops hrun (by omega) hnops

/-- Settles O5: a well-formed instruction is what its byte decodes to; the halt test is evaluated on each outcome. -/
theorem stepRunsTheDecodedInstruction : Obligations.StepRunsTheDecodedInstruction := by
  refine ⟨fun s i hrun hi hb => ?_, fun _ => rfl, haltTest_fault, haltTest_refused⟩
  rw [step_of_fetch hrun hb, decode_encode hi]

/-- Settles O6: the refusal outside `RUNNING` names the status, and in `RUNNING` there is none. -/
theorem stepEnabledExactlyWhenRunning : Obligations.StepEnabledExactlyWhenRunning :=
  fun _ => ⟨step_of_ne_running, step_ne_refused⟩

end Sys2Proof.Machine
end

section
/-! PROOFS. Cell arithmetic (`41_cell_arithmetic.md`). `INC` and `DEC` are one update of the machine, `addToCell`, with
1 and with -1; two updates in a row are one with the sum, and an update by a number that narrows to zero, as a multiple
of 65536 does, moves `IP` only. -/

namespace Sys2Proof.Machine

/-! ### Narrowing -/

/-- A cell's value is a 16-bit signed number (R21). -/
theorem cell_toInt_bounds (v : Cell) : -32768 ≤ v.toInt ∧ v.toInt ≤ 32767 :=
  ⟨BitVec.le_toInt v, Int.le_of_lt_add_one (BitVec.toInt_lt (x := v))⟩

/-- The value of a narrowed integer, by the formula of `00_scope.md` section 5. -/
theorem toInt_s16 (v : Int) : (s16 v).toInt = (v + 32768) % 65536 - 32768 := by
  rw [s16, BitVec.toInt_ofInt]
  simp only [Int.bmod_def, Config.cellWidth]
  split <;> omega

/-- Narrowing what is a cell's value already gives that cell. -/
@[simp] theorem s16_toInt (v : Cell) : s16 v.toInt = v :=
  BitVec.ofInt_toInt

/-- Narrowing a sum adds the narrowed summands. -/
theorem s16_add (v w : Int) : s16 (v + w) = s16 v + s16 w :=
  BitVec.ofInt_add v w

/-- A multiple of 65536 narrows to zero. -/
theorem s16_mul_65536 (d : Int) : s16 (65536 * d) = 0 := by
  have htoInt : (s16 (65536 * d)).toInt = 0 := by
    rw [toInt_s16]
    omega
  exact BitVec.eq_of_toInt_eq htoInt

/-! ### Writing a canonical tape -/

/-- Of two writes to one cell the second is the one that counts. -/
theorem Memory.write_write {m : Memory} (hm : m.wf = true) {k : Nat} (hk : k < Config.tapeLen) (v w : Cell) :
    (m.write k v).write k w = m.write k w := by
  have hv := Memory.write_wf hm hk v
  refine canonicalTapesThatReadAlikeAreEqual _ _ (Memory.write_wf hv hk w) (Memory.write_wf hm hk w) fun j => ?_
  rw [Memory.read_write hv, Memory.read_write hm, Memory.read_write hm]
  split <;> rfl

/-- Writing the value a cell has changes nothing. -/
theorem Memory.write_read {m : Memory} (hm : m.wf = true) {k : Nat} (hk : k < Config.tapeLen) :
    m.write k (m.read k) = m := by
  refine canonicalTapesThatReadAlikeAreEqual _ _ (Memory.write_wf hm hk _) hm fun j => ?_
  rw [Memory.read_write hm]
  split
  next hj => rw [hj]
  next => rfl

/-! ### The update -/

/-- The machine with `d` added to the active cell and `IP` `n` further. -/
def State.addToCell (d : Int) (n : Nat) (s : State) : State :=
  (s.setCell s.ptr.toNat (s16 ((s.tape.read s.ptr.toNat).toInt + d))).jump (s.ip + n)

/-- `INC` adds 1 (R90). -/
theorem exec_inc_eq_addToCell {s : State} (hptr : s.ptr.toNat < Config.tapeLen) :
    exec .inc s = .next (s.addToCell 1 1) :=
  exec_inc_next.mpr ⟨hptr, rfl⟩

/-- `DEC` adds -1 (R91). -/
theorem exec_dec_eq_addToCell {s : State} (hptr : s.ptr.toNat < Config.tapeLen) :
    exec .dec s = .next (s.addToCell (-1) 1) :=
  exec_dec_next.mpr ⟨hptr, rfl⟩

@[simp] theorem State.addToCell_ptr (d : Int) (n : Nat) (s : State) : (s.addToCell d n).ptr = s.ptr := rfl

theorem State.addToCell_tape (d : Int) (n : Nat) (s : State) :
    (s.addToCell d n).tape = s.tape.write s.ptr.toNat (s16 ((s.tape.read s.ptr.toNat).toInt + d)) := rfl

/-- The active cell reads the sum, narrowed. -/
theorem State.read_addToCell_ptr {s : State} (hwf : s.tape.wf = true) (d : Int) (n : Nat) :
    (s.addToCell d n).tape.read s.ptr.toNat = s16 ((s.tape.read s.ptr.toNat).toInt + d) := by
  rw [State.addToCell_tape, Memory.read_write hwf, if_pos rfl]

/-- Every other cell reads as before. -/
theorem State.read_addToCell_of_ne {s : State} (hwf : s.tape.wf = true) (d : Int) (n : Nat) {k : Nat}
    (hk : k ≠ s.ptr.toNat) : (s.addToCell d n).tape.read k = s.tape.read k := by
  rw [State.addToCell_tape, Memory.read_write hwf, if_neg hk]

/-- Two updates in a row are one: the second reads what the first wrote, and overwrites it. -/
theorem State.addToCell_addToCell {s : State} (hwf : s.tape.wf = true) (hptr : s.ptr.toNat < Config.tapeLen)
    (d e : Int) (n k : Nat) : (s.addToCell d n).addToCell e k = s.addToCell (d + e) (n + k) := by
  have hvalue (v : Int) : s16 ((s16 (v + d)).toInt + e) = s16 (v + (d + e)) := by
    rw [s16_add, s16_toInt, ← s16_add, add_assoc]
  have htape : ((s.addToCell d n).addToCell e k).tape = (s.addToCell (d + e) (n + k)).tape := by
    rw [State.addToCell_tape, State.addToCell_ptr, State.read_addToCell_ptr hwf, hvalue, State.addToCell_tape,
      Memory.write_write hwf hptr, State.addToCell_tape]
  calc (s.addToCell d n).addToCell e k
    _ = { s with tape := ((s.addToCell d n).addToCell e k).tape, ip := s.ip + n + k } := rfl
    _ = s.addToCell (d + e) (n + k) := by rw [htape, Nat.add_assoc]; rfl

/-- An update by a number that narrows to zero restores the machine but for `IP`. -/
theorem State.addToCell_of_s16_eq_zero {s : State} (hwf : s.tape.wf = true) (hptr : s.ptr.toNat < Config.tapeLen)
    {d : Int} (hd : s16 d = 0) (n : Nat) : s.addToCell d n = { s with ip := s.ip + n } := by
  have htape : s.tape.write s.ptr.toNat (s16 ((s.tape.read s.ptr.toNat).toInt + d)) = s.tape := by
    rw [s16_add, s16_toInt, hd, add_zero, Memory.write_read hwf hptr]
  simp only [State.addToCell, State.setCell, State.jump, htape]

/-- Where an instruction is the update by `d` at every machine with this `PTR`, doing it over and over gives the updates
by the multiples of `d`; number 65536 restores the machine but for `IP`. -/
theorem exists_run_of_exec_eq_addToCell {s : State} (hwf : s.tape.wf = true) (hptr : s.ptr.toNat < Config.tapeLen)
    {i : Instr} {d : Int} (hexec : ∀ t : State, t.ptr = s.ptr → exec i t = .next (t.addToCell d 1)) :
    ∃ run : Nat → State, run 0 = s ∧ (∀ n, exec i (run n) = .next (run (n + 1))) ∧
      run 65536 = { s with ip := s.ip + 65536 } := by
  refine ⟨fun n => s.addToCell (n * d) n, ?_, fun n => ?_, ?_⟩
  · exact State.addToCell_of_s16_eq_zero hwf hptr (by rw [Nat.cast_zero, zero_mul]; rfl) 0
  · rw [hexec _ (State.addToCell_ptr ..), State.addToCell_addToCell hwf hptr, ← add_one_mul, ← Nat.cast_succ]
  · exact State.addToCell_of_s16_eq_zero hwf hptr (s16_mul_65536 d) 65536

/-! ### The statements -/

/-- Settles O45: 1 and -1 add up to 0, in either order. -/
theorem incAndDecAreInverse : Obligations.IncAndDecAreInverse := by
  intro s hwf hptr
  have hback {d e : Int} (hsum : d + e = 0) : (s.addToCell d 1).addToCell e 1 = { s with ip := s.ip + 2 } := by
    rw [State.addToCell_addToCell hwf hptr, hsum, State.addToCell_of_s16_eq_zero hwf hptr rfl]
  refine ⟨⟨_, exec_inc_eq_addToCell hptr, ?_⟩, ⟨_, exec_dec_eq_addToCell hptr, ?_⟩⟩
  · rw [exec_dec_eq_addToCell (s := s.addToCell 1 1) hptr, hback (by decide)]
  · rw [exec_inc_eq_addToCell (s := s.addToCell (-1) 1) hptr, hback (by decide)]

/-- Settles O46: with `d` 1 for `INC` and -1 for `DEC`. -/
theorem cellsWrapAfter65536 : Obligations.CellsWrapAfter65536 := by
  rintro s hwf hptr i (rfl | rfl)
  · exact exists_run_of_exec_eq_addToCell hwf hptr fun t ht => exec_inc_eq_addToCell (ht ▸ hptr)
  · exact exists_run_of_exec_eq_addToCell hwf hptr fun t ht => exec_dec_eq_addToCell (ht ▸ hptr)

/-- Settles O8: the sum leaves the range of a cell only from 32767. -/
theorem incAddsOneToTheActiveCell : Obligations.IncAddsOneToTheActiveCell := by
  refine ⟨rfl, fun s hwf hptr => ⟨_, exec_inc_eq_addToCell hptr, ?_, fun _ => State.read_addToCell_of_ne hwf _ _,
    rfl, rfl, rfl, rfl, rfl, rfl⟩⟩
  obtain ⟨hlow, hhigh⟩ := cell_toInt_bounds (s.tape.read s.ptr.toNat)
  rw [State.read_addToCell_ptr hwf, toInt_s16]
  split <;> omega

/-- Settles O9: the difference leaves the range of a cell only from -32768. -/
theorem decSubtractsOneFromTheActiveCell : Obligations.DecSubtractsOneFromTheActiveCell := by
  refine ⟨rfl, fun s hwf hptr => ⟨_, exec_dec_eq_addToCell hptr, ?_, fun _ => State.read_addToCell_of_ne hwf _ _,
    rfl, rfl, rfl, rfl, rfl, rfl⟩⟩
  obtain ⟨hlow, hhigh⟩ := cell_toInt_bounds (s.tape.read s.ptr.toNat)
  rw [State.read_addToCell_ptr hwf, toInt_s16]
  split <;> omega

end Sys2Proof.Machine
end

section
/-! PROOFS. Pointer (`42_pointer.md`). `LEFT` and `RIGHT` are one move of the machine, `movePtr`, by -1 and by 1 on the
ring; two moves in a row are one by the sum, and a move by a multiple of 65535 moves `IP` only. -/

namespace Sys2Proof.Machine

/-! ### The ring -/

/-- The index `d` cells to the right of `p` on the ring (R100). -/
def ptrMove (d : Int) (p : Ptr) : Ptr := BitVec.ofInt Config.ptrWidth (((p.toNat : Int) + d) % (Config.tapeLen : Int))

/-- `PTR` is wide enough for every index, so the index is the remainder itself. -/
theorem toNat_ptrMove (d : Int) (p : Ptr) : ((ptrMove d p).toNat : Int) = ((p.toNat : Int) + d) % 65535 := by
  simp only [ptrMove, BitVec.toNat_ofInt, Config.ptrWidth, Config.tapeLen]
  omega

/-- Moves on the ring add up. -/
theorem ptrMove_ptrMove (d e : Int) (p : Ptr) : ptrMove e (ptrMove d p) = ptrMove (d + e) p := by
  have hindex : ((ptrMove e (ptrMove d p)).toNat : Int) = (ptrMove (d + e) p).toNat := by
    rw [toNat_ptrMove, toNat_ptrMove, toNat_ptrMove, Int.emod_add_emod, add_assoc]
  exact BitVec.eq_of_toNat_eq (Int.ofNat_inj.mp hindex)

/-- Whole turns of the ring lead back, from any index that names a cell. -/
theorem ptrMove_mul_tapeLen {p : Ptr} (hp : p.toNat < Config.tapeLen) (d : Int) : ptrMove (65535 * d) p = p := by
  have hindex : ((ptrMove (65535 * d) p).toNat : Int) = p.toNat := by
    rw [toNat_ptrMove, Int.add_mul_emod_self_left]
    exact Int.emod_eq_of_lt (Int.natCast_nonneg _) (Int.ofNat_lt.mpr hp)
  exact BitVec.eq_of_toNat_eq (Int.ofNat_inj.mp hindex)

/-! ### The move -/

/-- The machine with `PTR` `d` cells further right and `IP` `n` further. -/
def State.movePtr (d : Int) (n : Nat) (s : State) : State := (s.setPtr (ptrMove d s.ptr)).jump (s.ip + n)

/-- `LEFT` moves by -1 (R101). -/
theorem exec_left_eq_movePtr (s : State) : exec .left s = .next (s.movePtr (-1) 1) :=
  exec_left_next.mpr rfl

/-- `RIGHT` moves by 1 (R102). -/
theorem exec_right_eq_movePtr (s : State) : exec .right s = .next (s.movePtr 1 1) :=
  exec_right_next.mpr rfl

/-- Two moves in a row are one. -/
theorem State.movePtr_movePtr (d e : Int) (n k : Nat) (s : State) :
    (s.movePtr d n).movePtr e k = s.movePtr (d + e) (n + k) := by
  calc (s.movePtr d n).movePtr e k
    _ = { s with ptr := ptrMove e (ptrMove d s.ptr), ip := s.ip + n + k } := rfl
    _ = s.movePtr (d + e) (n + k) := by rw [ptrMove_ptrMove, Nat.add_assoc]; rfl

/-- A move by whole turns of the ring restores the machine but for `IP`. -/
theorem State.movePtr_mul_tapeLen {s : State} (hptr : s.ptr.toNat < Config.tapeLen) (d : Int) (n : Nat) :
    s.movePtr (65535 * d) n = { s with ip := s.ip + n } := by
  simp only [State.movePtr, State.setPtr, State.jump, ptrMove_mul_tapeLen hptr]

/-- Where an instruction is the move by `d`, doing it over and over gives the moves by the multiples of `d`; number
65535 restores the machine but for `IP`. -/
theorem exists_run_of_exec_eq_movePtr {s : State} (hptr : s.ptr.toNat < Config.tapeLen) {i : Instr} {d : Int}
    (hexec : ∀ t : State, exec i t = .next (t.movePtr d 1)) :
    ∃ run : Nat → State, run 0 = s ∧ (∀ n, exec i (run n) = .next (run (n + 1))) ∧
      run 65535 = { s with ip := s.ip + 65535 } := by
  refine ⟨fun n => s.movePtr (n * d) n, ?_, fun n => ?_, ?_⟩
  · simpa using State.movePtr_mul_tapeLen hptr 0 0
  · rw [hexec, State.movePtr_movePtr, ← add_one_mul, ← Nat.cast_succ]
  · exact State.movePtr_mul_tapeLen hptr d 65535

/-! ### The statements -/

/-- Settles O47: -1 and 1 add up to 0, in either order, and 65535 moves by either are whole turns of the ring. -/
theorem theTapeIsARing : Obligations.TheTapeIsARing := by
  intro s hptr
  have hback {d e : Int} (hsum : d + e = 65535 * 0) : (s.movePtr d 1).movePtr e 1 = { s with ip := s.ip + 2 } := by
    rw [State.movePtr_movePtr, hsum, State.movePtr_mul_tapeLen hptr]
  refine ⟨⟨_, exec_left_eq_movePtr s, ?_⟩, ⟨_, exec_right_eq_movePtr s, ?_⟩, ?_⟩
  · rw [exec_right_eq_movePtr, hback (by decide)]
  · rw [exec_left_eq_movePtr, hback (by decide)]
  · rintro i (rfl | rfl)
    · exact exists_run_of_exec_eq_movePtr hptr exec_left_eq_movePtr
    · exact exists_run_of_exec_eq_movePtr hptr exec_right_eq_movePtr

/-- Settles O10: the remainder differs from `PTR - 1` only at 0. -/
theorem leftMovesThePointerDown : Obligations.LeftMovesThePointerDown := by
  intro s hptr
  refine ⟨ptrMove (-1) s.ptr, exec_left_eq_movePtr s, ?_⟩
  have hindex := toNat_ptrMove (-1) s.ptr
  split <;> omega

/-- Settles O11: the remainder differs from `PTR + 1` only at 65534. -/
theorem rightMovesThePointerUp : Obligations.RightMovesThePointerUp := by
  intro s hptr
  refine ⟨ptrMove 1 s.ptr, exec_right_eq_movePtr s, ?_⟩
  have hindex := toNat_ptrMove 1 s.ptr
  split <;> omega

end Sys2Proof.Machine
end

section
/-! PROOFS. Input and output (`43_io.md`). `OUT` alone writes the output and `IN` alone the answers; `IN` is taken in its
three cases: a character, `Fail`, and no answer yet. -/

namespace Sys2Proof.Machine

/-! ### The output -/

/-- Every instruction but `OUT` leaves the output as it is (R110). -/
theorem exec_outTrace_of_ne_out {i : Instr} {s t : State} (hi : i ≠ .out) (h : exec i s = .next t) :
    t.outTrace = s.outTrace := by
  cases i with
  | out => exact absurd rfl hi
  | inc =>
    obtain ⟨-, rfl⟩ := exec_inc_next.mp h
    rfl
  | dec =>
    obtain ⟨-, rfl⟩ := exec_dec_next.mp h
    rfl
  | inp => obtain ⟨-, rfl⟩ | ⟨_, -, rfl⟩ | ⟨_, _, -, -, rfl⟩ := exec_inp_next.mp h <;> rfl
  | loops => obtain ⟨-, ⟨-, rfl⟩ | ⟨-, _, -, rfl⟩ | ⟨-, -, rfl⟩⟩ := exec_loops_next.mp h <;> rfl
  | loope => obtain ⟨_, -, rfl⟩ | ⟨-, rfl⟩ := exec_loope_next.mp h <;> rfl
  | left | right | cmt | nop =>
    obtain rfl := Host.Outcome.next.inj h
    rfl

/-! ### The answers -/

/-- Every instruction but `IN` consumes no answer: with the answers it has, it carries those through. -/
theorem exec_input_of_ne_inp {i : Instr} {s t : State} (hi : i ≠ .inp) (h : exec i s = .next t) :
    t.input = s.input := by
  have hcarried : exec i s = .next (t.setInput s.input) := exec_setInput s.input hi h
  have ht : t = t.setInput s.input := Host.Outcome.next.inj (h.symm.trans hcarried)
  rw [ht, State.setInput_input]

/-- `IN` with a character stores it, narrowed, in the active cell (R112). -/
theorem exec_inp_of_char {s : State} {c : Nat} {rest : List Answer} (hptr : s.ptr.toNat < Config.tapeLen)
    (hin : s.input = .char c :: rest) :
    exec .inp s = .next ((s.setInput rest).setCell s.ptr.toNat (s16 c)).advance :=
  exec_inp_next.mpr (.inr (.inr ⟨c, rest, hin, hptr, rfl⟩))

/-- `IN` with a failing source raises `InputError` (R114). -/
theorem exec_inp_of_fail {s : State} {rest : List Answer} (hin : s.input = .fail :: rest) :
    exec .inp s = .next (raise .input s) :=
  exec_inp_next.mpr (.inr (.inl ⟨rest, hin, rfl⟩))

/-- `IN` with no answer yet leaves the machine in the same state (R115; log 4). -/
theorem exec_inp_of_nil {s : State} (hin : s.input = []) : exec .inp s = .next s :=
  exec_inp_next.mpr (.inl ⟨hin, rfl⟩)

/-- The step of an `IN` that waits is a wait too: `IP` still indexes the `IN`, so the halt test does nothing. -/
theorem step_of_waiting_inp {s : State} (hin : s.input = []) (hrun : s.status = .running)
    (hb : s.prog[s.ip]? = some opIn) : step s = .next s := by
  obtain ⟨hip, -⟩ := List.getElem?_eq_some_iff.mp hb
  have hgoOn : haltIfDone s = s := if_neg fun hdone => hip.ne hdone.2
  have hexec : exec (decode opIn) s = .next s := exec_inp_of_nil hin
  rw [step_of_fetch hrun hb, hexec, haltTest_next, hgoOn]

/-! ### The statements -/

/-- Settles O12: the one next state of `OUT`, and the frame of every other instruction. -/
theorem outEmitsTheActiveCell : Obligations.OutEmitsTheActiveCell :=
  ⟨rfl, fun _ hptr => exec_out_next.mpr ⟨hptr, rfl⟩, fun _ _ _ => exec_outTrace_of_ne_out⟩

/-- Settles O13: the cell written reads back as the narrowed code point, and every other cell as before. -/
theorem inStoresTheCodePoint : Obligations.InStoresTheCodePoint := by
  refine ⟨fun s c rest hwf hptr hin => ⟨_, exec_inp_of_char hptr hin, ?_, fun k hk => ?_,
    rfl, rfl, rfl, rfl, rfl, rfl⟩, fun _ _ _ => exec_input_of_ne_inp⟩
  · rw [State.advance_tape, State.setCell_tape, State.setInput_tape, Memory.read_write hwf, if_pos rfl, toInt_s16]
  · rw [State.advance_tape, State.setCell_tape, State.setInput_tape, Memory.read_write hwf, if_neg hk]

/-- Settles O14: raising an error writes `STATUS` only. -/
theorem inFailureRaisesInputError : Obligations.InFailureRaisesInputError :=
  fun _ _ hin => exec_inp_of_fail hin

/-- Settles O15: the wait of `IN`, that of its step, and the answers put after none. -/
theorem inWaitsForAnAnswer : Obligations.InWaitsForAnAnswer := by
  intro s hin
  refine ⟨exec_inp_of_nil hin, step_of_waiting_inp hin, fun as => ?_⟩
  rw [supply, hin, List.nil_append, State.setInput]

end Sys2Proof.Machine
end

section
/-! PROOFS. The bracket-matching engine (`44_loops.md`). The two scans are one, `bytesToPartner`, read in two directions:
it stops at the first byte where the depth, a difference of two counts, is 0. The closed forms of R126 and R129 are that
fact with the counts of the program's own segments. -/

namespace Sys2Proof.Machine

open Sys2Proof.Terms

/-! ### One scan for both directions -/

/-- The loop of R125 and of R128 without its direction: how many bytes are passed before the one where the depth is 0. -/
def bytesToPartner (opener closer : Byte) : List Byte → Nat → Option Nat
  | [], _ => none
  | b :: rest, depth =>
    if nextDepth opener closer b depth = 0 then some 0
    else (bytesToPartner opener closer rest (nextDepth opener closer b depth)).map (· + 1)

theorem bytesToPartner_cons (opener closer b : Byte) (rest : List Byte) (depth : Nat) :
    bytesToPartner opener closer (b :: rest) depth =
      if nextDepth opener closer b depth = 0 then some 0
      else (bytesToPartner opener closer rest (nextDepth opener closer b depth)).map (· + 1) := rfl

/-- The forward scan counts the index up from `j` (R125). -/
theorem scanFwd_eq_bytesToPartner (bytes : List Byte) (j depth : Nat) :
    scanFwd bytes j depth = (bytesToPartner opLoops opLoope bytes depth).map (j + ·) := by
  induction bytes generalizing j depth with
  | nil => rfl
  | cons b rest ih =>
    rw [scanFwd_cons, bytesToPartner_cons, ih]
    split
    · rfl
    · rw [Option.map_map]
      congr 1
      funext n
      exact Nat.add_right_comm j 1 n

/-- The backward scan counts the index down from the number of bytes before the `]` (R128). -/
theorem scanBwd_eq_bytesToPartner (bytes : List Byte) (depth : Nat) :
    scanBwd bytes depth = (bytesToPartner opLoope opLoops bytes depth).map (bytes.length - 1 - ·) := by
  induction bytes generalizing depth with
  | nil => rfl
  | cons b rest ih =>
    rw [scanBwd_cons, bytesToPartner_cons, ih]
    split
    · rfl
    · rw [Option.map_map]
      congr 1
      funext n
      simp only [Function.comp_apply, List.length_cons]
      omega

/-! ### The depth as a difference of counts -/

/-- The depth after the first `k` of `bytes`, as a number that may go below 0. -/
def depthAfter (opener closer : Byte) (depth : Nat) (bytes : List Byte) (k : Nat) : Int :=
  depth + (bytes.take k).count opener - (bytes.take k).count closer

@[simp] theorem depthAfter_zero (opener closer : Byte) (depth : Nat) (bytes : List Byte) :
    depthAfter opener closer depth bytes 0 = depth := by
  simp [depthAfter]

@[simp] theorem depthAfter_nil (opener closer : Byte) (depth k : Nat) :
    depthAfter opener closer depth [] k = depth := by
  simp [depthAfter]

/-- While the depth is positive, one byte changes it as the scan does. -/
theorem depthAfter_cons_succ {opener closer : Byte} (hne : closer ≠ opener) {depth : Nat} (hdepth : 0 < depth)
    (b : Byte) (rest : List Byte) (k : Nat) :
    depthAfter opener closer depth (b :: rest) (k + 1) =
      depthAfter opener closer (nextDepth opener closer b depth) rest k := by
  simp only [depthAfter, List.take_succ_cons]
  by_cases hopen : b = opener
  · subst hopen
    rw [nextDepth_opens, List.count_cons_self, List.count_cons_of_ne hne.symm]
    omega
  · by_cases hclose : b = closer
    · subst hclose
      rw [nextDepth_closes hne, List.count_cons_self, List.count_cons_of_ne hne]
      omega
    · rw [nextDepth_other hopen hclose, List.count_cons_of_ne hopen, List.count_cons_of_ne hclose]

/-- Only a closing byte brings a positive depth to 0. -/
theorem eq_closer_of_nextDepth_eq_zero {opener closer b : Byte} {depth : Nat} (hdepth : 0 < depth)
    (h : nextDepth opener closer b depth = 0) : b = closer := by
  by_contra hclose
  by_cases hopen : b = opener
  · subst hopen
    rw [nextDepth_opens] at h
    omega
  · rw [nextDepth_other hopen hclose] at h
    omega

/-- A scan that stops has read a closing byte, at the first place where the depth is 0. -/
theorem bytesToPartner_eq_some {opener closer : Byte} (hne : closer ≠ opener) {bytes : List Byte} {depth n : Nat}
    (hdepth : 0 < depth) (h : bytesToPartner opener closer bytes depth = some n) :
    bytes[n]? = some closer ∧ depthAfter opener closer depth bytes (n + 1) = 0 ∧
      ∀ k ≤ n, 0 < depthAfter opener closer depth bytes k := by
  induction bytes generalizing depth n with
  | nil => cases h
  | cons b rest ih =>
    rw [bytesToPartner_cons] at h
    split at h
    next hzero =>
      obtain rfl := Option.some.inj h
      refine ⟨congrArg some (eq_closer_of_nextDepth_eq_zero hdepth hzero), ?_, fun k hk => ?_⟩
      · rw [depthAfter_cons_succ hne hdepth, hzero, depthAfter_zero, Nat.cast_zero]
      · rw [Nat.le_zero.mp hk, depthAfter_zero]
        exact_mod_cast hdepth
    next hpos =>
      obtain ⟨n', hn', rfl⟩ := Option.map_eq_some_iff.mp h
      obtain ⟨hbyte, hzero, hbefore⟩ := ih (Nat.pos_of_ne_zero hpos) hn'
      refine ⟨hbyte, (depthAfter_cons_succ hne hdepth ..).trans hzero, fun k hk => ?_⟩
      cases k with
      | zero => simpa using hdepth
      | succ k =>
        rw [depthAfter_cons_succ hne hdepth]
        exact hbefore k (Nat.le_of_succ_le_succ hk)

/-- A scan that runs out of bytes has kept the depth positive (R127, R130). -/
theorem depthAfter_pos_of_bytesToPartner_eq_none {opener closer : Byte} (hne : closer ≠ opener) {bytes : List Byte}
    {depth : Nat} (hdepth : 0 < depth) (h : bytesToPartner opener closer bytes depth = none) (k : Nat) :
    0 < depthAfter opener closer depth bytes k := by
  induction bytes generalizing depth k with
  | nil => simpa using hdepth
  | cons b rest ih =>
    rw [bytesToPartner_cons] at h
    split at h
    next => cases h
    next hpos =>
      cases k with
      | zero => simpa using hdepth
      | succ k =>
        rw [depthAfter_cons_succ hne hdepth]
        exact ih (Nat.pos_of_ne_zero hpos) (Option.map_eq_none_iff.mp h) k

/-! ### The depth in the counts of R126 and R129 -/

/-- The depth of the forward scan when it has read `Prog[i+1]` to `Prog[k]`. -/
theorem depthAfter_drop (prog : List Byte) (i k : Nat) :
    depthAfter opLoops opLoope 1 (prog.drop (i + 1)) (k - i) =
      1 + opens prog (i + 1) k - closes prog (i + 1) k := by
  rw [opens, closes, List.drop_take, Nat.add_sub_add_right]
  rfl

/-- The depth of the backward scan when it has read `Prog[i-1]` down to `Prog[k]`. -/
theorem depthAfter_reverse_take {prog : List Byte} {i k : Nat} (hi : i ≤ prog.length) (hpos : 0 < i) (hk : k ≤ i) :
    depthAfter opLoope opLoops 1 (prog.take i).reverse (i - k) =
      1 + closes prog k (i - 1) - opens prog k (i - 1) := by
  have hread : (prog.take i).reverse.take (i - k) = ((prog.take (i - 1 + 1)).drop k).reverse := by
    rw [List.take_reverse, List.length_take, min_eq_left hi, Nat.sub_sub_self hk, Nat.sub_add_cancel hpos]
  rw [depthAfter, hread, List.count_reverse, List.count_reverse]
  rfl

/-! ### What the two scans answer -/

theorem opLoope_ne_opLoops : opLoope ≠ opLoops := by decide

/-- What the spec says of a partner found forward (R126). -/
theorem matchFwd_eq_some {prog : List Byte} {i m : Nat} (h : matchFwd prog i = some m) :
    i < m ∧ prog[m]? = some opLoope ∧ closes prog (i + 1) m = opens prog (i + 1) m + 1 ∧
      ∀ k < m, closes prog (i + 1) k ≤ opens prog (i + 1) k := by
  rw [matchFwd, scanFwd_eq_bytesToPartner] at h
  obtain ⟨n, hn, rfl⟩ := Option.map_eq_some_iff.mp h
  obtain ⟨hbyte, hzero, hbefore⟩ := bytesToPartner_eq_some opLoope_ne_opLoops one_pos hn
  refine ⟨by omega, List.getElem?_drop.symm.trans hbyte, ?_, fun k hkm => ?_⟩
  · rw [show n + 1 = i + 1 + n - i by omega, depthAfter_drop] at hzero
    omega
  · have hpos := hbefore (k - i) (by omega)
    rw [depthAfter_drop] at hpos
    omega

/-- Where no partner is found forward, the counts forward never have more `]` than `[` (R127). -/
theorem closes_le_opens_of_matchFwd_eq_none {prog : List Byte} {i : Nat} (h : matchFwd prog i = none) (k : Nat) :
    closes prog (i + 1) k ≤ opens prog (i + 1) k := by
  rw [matchFwd, scanFwd_eq_bytesToPartner, Option.map_eq_none_iff] at h
  have hpos := depthAfter_pos_of_bytesToPartner_eq_none opLoope_ne_opLoops one_pos h (k - i)
  rw [depthAfter_drop] at hpos
  omega

/-- What the spec says of a partner found backward (R129). -/
theorem matchBwd_eq_some {prog : List Byte} {i m : Nat} (hi : i ≤ prog.length) (h : matchBwd prog i = some m) :
    m < i ∧ prog[m]? = some opLoops ∧ opens prog m (i - 1) = closes prog m (i - 1) + 1 ∧
      ∀ k, m < k → k ≤ i → opens prog k (i - 1) ≤ closes prog k (i - 1) := by
  have hlen : (prog.take i).reverse.length = i := by
    rw [List.length_reverse, List.length_take, min_eq_left hi]
  rw [matchBwd, scanBwd_eq_bytesToPartner, hlen] at h
  obtain ⟨n, hn, rfl⟩ := Option.map_eq_some_iff.mp h
  obtain ⟨hbyte, hzero, hbefore⟩ := bytesToPartner_eq_some opLoope_ne_opLoops.symm one_pos hn
  have hni : n < i := hlen ▸ (List.getElem?_eq_some_iff.mp hbyte).1
  refine ⟨by omega, ?_, ?_, fun k hmk hki => ?_⟩
  · rwa [List.getElem?_reverse (by simpa [hi] using hni), List.length_take, min_eq_left hi,
      List.getElem?_take_of_lt (by omega)] at hbyte
  · rw [show n + 1 = i - (i - 1 - n) by omega, depthAfter_reverse_take hi (by omega) (by omega)] at hzero
    omega
  · have hpos := hbefore (i - k) (by omega)
    rw [depthAfter_reverse_take hi (by omega) hki] at hpos
    omega

/-- Where no partner is found backward, the counts backward never have more `[` than `]` (R130). -/
theorem opens_le_closes_of_matchBwd_eq_none {prog : List Byte} {i k : Nat} (hi : i ≤ prog.length) (hk : k < i)
    (h : matchBwd prog i = none) : opens prog k (i - 1) ≤ closes prog k (i - 1) := by
  rw [matchBwd, scanBwd_eq_bytesToPartner, Option.map_eq_none_iff] at h
  have hpos := depthAfter_pos_of_bytesToPartner_eq_none opLoope_ne_opLoops.symm one_pos h (i - k)
  rw [depthAfter_reverse_take hi (by omega) hk.le] at hpos
  omega

/-- R126: the forward scan finds the least index where the count of `]` is one ahead, for that is where it stops. -/
theorem matchFwd_eq_some_iff {prog : List Byte} {i : Nat} (hi : i < prog.length) (m : Nat) :
    matchFwd prog i = some m ↔ FwdPartner prog i m := by
  constructor
  · intro h
    obtain ⟨him, -, hzero, hbefore⟩ := matchFwd_eq_some h
    exact ⟨⟨him, matchFwd_lt hi h, hzero⟩, fun k _ hkm => by have hle := hbefore k hkm; omega⟩
  · rintro ⟨⟨him, -, hzero⟩, hleast⟩
    cases h : matchFwd prog i with
    | none =>
      have hle := closes_le_opens_of_matchFwd_eq_none h m
      omega
    | some m' =>
      obtain ⟨him', -, hzero', hbefore'⟩ := matchFwd_eq_some h
      rcases lt_trichotomy m m' with hlt | rfl | hgt
      · have hle := hbefore' m hlt
        omega
      · rfl
      · exact absurd hzero' (hleast m' him' hgt)

/-- R129: the backward scan finds the greatest index where the count of `[` is one ahead. -/
theorem matchBwd_eq_some_iff {prog : List Byte} {i : Nat} (hi : i ≤ prog.length) (m : Nat) :
    matchBwd prog i = some m ↔ BwdPartner prog i m := by
  constructor
  · intro h
    obtain ⟨hmi, -, hzero, hbefore⟩ := matchBwd_eq_some hi h
    exact ⟨⟨hmi, hzero⟩, fun k hmk hki => by have hle := hbefore k hmk hki.le; omega⟩
  · rintro ⟨⟨hmi, hzero⟩, hgreatest⟩
    cases h : matchBwd prog i with
    | none =>
      have hle := opens_le_closes_of_matchBwd_eq_none hi hmi h
      omega
    | some m' =>
      obtain ⟨hmi', -, hzero', hbefore'⟩ := matchBwd_eq_some hi h
      rcases lt_trichotomy m m' with hlt | rfl | hgt
      · exact absurd hzero' (hgreatest m' hlt hmi')
      · rfl
      · have hle := hbefore' m hgt hmi.le
        omega

/-! ### Partners -/

/-- How many of the bytes `Prog[a]` to `Prog[b]` are `c`: `opens` and `closes` are its two cases. -/
def countSegment (c : Byte) (prog : List Byte) (a b : Nat) : Nat := ((prog.take (b + 1)).drop a).count c

/-- A segment of one byte. -/
theorem countSegment_self (c : Byte) {prog : List Byte} {a : Nat} {b : Byte} (hb : prog[a]? = some b) :
    countSegment c prog a a = if b = c then 1 else 0 := by
  obtain ⟨ha, rfl⟩ := List.getElem?_eq_some_iff.mp hb
  rw [countSegment, List.drop_take_succ_eq_cons_getElem prog a ha, List.count_singleton]
  simp only [beq_iff_eq]

/-- A segment cut before `Prog[k]`. -/
theorem countSegment_split (c : Byte) (prog : List Byte) {a b k : Nat} (hpos : 0 < k) (hak : a ≤ k) (hkb : k ≤ b + 1) :
    countSegment c prog a b = countSegment c prog a (k - 1) + countSegment c prog k b := by
  have hfront : ((prog.take (b + 1)).drop a).take (k - a) = (prog.take (k - 1 + 1)).drop a := by
    rw [← List.drop_take, List.take_take, min_eq_left hkb, Nat.sub_add_cancel hpos]
  have hback : ((prog.take (b + 1)).drop a).drop (k - a) = (prog.take (b + 1)).drop k := by
    rw [List.drop_drop, Nat.add_sub_cancel' hak]
  rw [countSegment, ← List.take_append_drop (k - a) ((prog.take (b + 1)).drop a), List.count_append, hfront, hback]
  rfl

theorem opens_split (prog : List Byte) {a b k : Nat} (hpos : 0 < k) (hak : a ≤ k) (hkb : k ≤ b + 1) :
    opens prog a b = opens prog a (k - 1) + opens prog k b :=
  countSegment_split opLoops prog hpos hak hkb

theorem closes_split (prog : List Byte) {a b k : Nat} (hpos : 0 < k) (hak : a ≤ k) (hkb : k ≤ b + 1) :
    closes prog a b = closes prog a (k - 1) + closes prog k b :=
  countSegment_split opLoope prog hpos hak hkb

/-- A `[` alone. -/
theorem counts_of_opLoops {prog : List Byte} {i : Nat} (h : prog[i]? = some opLoops) :
    opens prog i i = 1 ∧ closes prog i i = 0 :=
  ⟨countSegment_self opLoops h, countSegment_self opLoope h⟩

/-- A `]` alone. -/
theorem counts_of_opLoope {prog : List Byte} {m : Nat} (h : prog[m]? = some opLoope) :
    opens prog m m = 0 ∧ closes prog m m = 1 :=
  ⟨countSegment_self opLoops h, countSegment_self opLoope h⟩

/-- With a `[` at `i`, what a count between the brackets becomes when it takes the `[` in. -/
theorem counts_from_opLoops {prog : List Byte} {i b : Nat} (hib : i ≤ b) (hi : prog[i]? = some opLoops) :
    opens prog i b = opens prog (i + 1) b + 1 ∧ closes prog i b = closes prog (i + 1) b := by
  obtain ⟨hopens, hcloses⟩ := counts_of_opLoops hi
  have hsplitOpens := opens_split prog i.succ_pos i.le_succ (Nat.succ_le_succ hib)
  have hsplitCloses := closes_split prog i.succ_pos i.le_succ (Nat.succ_le_succ hib)
  simp only [Nat.succ_eq_add_one, Nat.add_sub_cancel] at hsplitOpens hsplitCloses
  omega

/-- With a `]` at `m`, what a count between the brackets becomes when it takes the `]` in. -/
theorem counts_to_opLoope {prog : List Byte} {a m : Nat} (hpos : 0 < m) (ham : a ≤ m)
    (hm : prog[m]? = some opLoope) :
    opens prog a m = opens prog a (m - 1) ∧ closes prog a m = closes prog a (m - 1) + 1 := by
  obtain ⟨hopens, hcloses⟩ := counts_of_opLoope hm
  have hsplitOpens := opens_split prog hpos ham m.le_succ
  have hsplitCloses := closes_split prog hpos ham m.le_succ
  omega

/-- R136, forward to backward: before `Prog[k]` no more `]` than `[`, and as many of each in all, so from `Prog[k]` on no
more `[` than `]`. -/
theorem matchBwd_of_matchFwd {prog : List Byte} {i m : Nat} (hi : prog[i]? = some opLoops)
    (h : matchFwd prog i = some m) : matchBwd prog m = some i := by
  obtain ⟨him, hm, hzero, hbefore⟩ := matchFwd_eq_some h
  obtain ⟨hlen, -⟩ := List.getElem?_eq_some_iff.mp hm
  obtain ⟨hopens, hcloses⟩ := counts_from_opLoops (b := m - 1) (by omega) hi
  obtain ⟨hopens', hcloses'⟩ := counts_to_opLoope (a := i + 1) (by omega) him hm
  refine (matchBwd_eq_some_iff hlen.le i).mpr ⟨⟨him, by omega⟩, fun k hik hkm => ?_⟩
  have hfront := hbefore (k - 1) (by omega)
  have hsplitOpens := opens_split prog (a := i + 1) (b := m - 1) (k := k) (by omega) hik (by omega)
  have hsplitCloses := closes_split prog (a := i + 1) (b := m - 1) (k := k) (by omega) hik (by omega)
  omega

/-- R136, backward to forward: the same counts, cut after `Prog[k]`. -/
theorem matchFwd_of_matchBwd {prog : List Byte} {i m : Nat} (hi : prog[i]? = some opLoope)
    (h : matchBwd prog i = some m) : matchFwd prog m = some i := by
  obtain ⟨hlen, -⟩ := List.getElem?_eq_some_iff.mp hi
  obtain ⟨hmi, hm, hzero, hbefore⟩ := matchBwd_eq_some hlen.le h
  obtain ⟨hopens, hcloses⟩ := counts_from_opLoops (b := i - 1) (by omega) hm
  obtain ⟨hopens', hcloses'⟩ := counts_to_opLoope (a := m + 1) (by omega) hmi hi
  refine (matchFwd_eq_some_iff (hmi.trans hlen) i).mpr ⟨⟨hmi, hlen, by omega⟩, fun k hmk hki => ?_⟩
  have hback := hbefore (k + 1) (by omega) hki
  have hsplitOpens := opens_split prog (a := m + 1) (b := i - 1) k.succ_pos (by omega) (by omega)
  have hsplitCloses := closes_split prog (a := m + 1) (b := i - 1) k.succ_pos (by omega) (by omega)
  simp only [Nat.succ_eq_add_one, Nat.add_sub_cancel] at hsplitOpens hsplitCloses
  omega

/-! ### Bytes that are no bracket -/

/-- A byte changes the depth as any other byte that is the same to the scan (R131). -/
theorem nextDepth_congr {opener closer b c : Byte} (hopen : b = opener ↔ c = opener) (hclose : b = closer ↔ c = closer)
    (depth : Nat) : nextDepth opener closer b depth = nextDepth opener closer c depth := by
  simp only [nextDepth, hopen, hclose]

theorem scanFwd_congr {bytes bytes' : List Byte} (h : List.Forall₂ SameToScan bytes bytes') (j depth : Nat) :
    scanFwd bytes j depth = scanFwd bytes' j depth := by
  induction h generalizing j depth with
  | nil => rfl
  | cons hbyte _ ih =>
    obtain ⟨hopen, hclose⟩ := hbyte
    rw [scanFwd_cons, scanFwd_cons, nextDepth_congr (opener := opLoops) (closer := opLoope) hopen hclose, ih]

theorem scanBwd_congr {bytes bytes' : List Byte} (h : List.Forall₂ SameToScan bytes bytes') (depth : Nat) :
    scanBwd bytes depth = scanBwd bytes' depth := by
  induction h generalizing depth with
  | nil => rfl
  | cons hbyte hrest ih =>
    obtain ⟨hopen, hclose⟩ := hbyte
    rw [scanBwd_cons, scanBwd_cons, nextDepth_congr (opener := opLoope) (closer := opLoops) hclose hopen, ih,
      hrest.length_eq]

/-! ### The two instructions -/

/-- `LOOPS` with a zero cell and a partner goes just past the partner (R121). -/
theorem exec_loops_of_zero {s : State} {m : Nat} (hptr : s.ptr.toNat < Config.tapeLen)
    (hzero : (s.tape.read s.ptr.toNat).toInt = 0) (hm : matchFwd s.prog s.ip = some m) :
    exec .loops s = .next (s.jump (m + 1)) :=
  exec_loops_next.mpr ⟨hptr, .inr (.inl ⟨hzero, m, hm, rfl⟩)⟩

/-- `LOOPE` with a partner goes onto it (R122). -/
theorem exec_loope_of_partner {s : State} {m : Nat} (hm : matchBwd s.prog s.ip = some m) :
    exec .loope s = .next (s.jump m) :=
  exec_loope_next.mpr (.inl ⟨m, hm, rfl⟩)

/-- The step of a `]` with a partner: the partner is an index below `PLEN`, so the halt test does nothing. -/
theorem step_loope_of_partner {s : State} {m : Nat} (hrun : s.status = .running) (hb : s.prog[s.ip]? = some opLoope)
    (hm : matchBwd s.prog s.ip = some m) : step s = .next (s.jump m) := by
  have hgoOn : haltIfDone (s.jump m) = s.jump m := if_neg fun hdone => (matchBwd_lt hm).ne hdone.2
  have hexec : exec (decode opLoope) s = .next (s.jump m) := exec_loope_of_partner hm
  rw [step_of_fetch hrun hb, hexec, haltTest_next, hgoOn]

/-- The step of a `[` with a zero cell and a partner. -/
theorem step_loops_of_zero {s : State} {m : Nat} (hrun : s.status = .running) (hptr : s.ptr.toNat < Config.tapeLen)
    (hb : s.prog[s.ip]? = some opLoops) (hzero : (s.tape.read s.ptr.toNat).toInt = 0)
    (hm : matchFwd s.prog s.ip = some m) : step s = .next (haltIfDone (s.jump (m + 1))) := by
  have hexec : exec (decode opLoops) s = .next (s.jump (m + 1)) := exec_loops_of_zero hptr hzero hm
  rw [step_of_fetch hrun hb, hexec, haltTest_next]

/-- The halt test on a machine that goes on sets `STATUS` by `IP` alone (R84). -/
theorem haltIfDone_of_running {s : State} (hrun : s.status = .running) :
    haltIfDone s = s.setStatus (if s.ip = s.prog.length then .halted else .running) := by
  unfold haltIfDone
  by_cases hip : s.ip = s.prog.length
  · rw [if_pos ⟨hrun, hip⟩, if_pos hip]
  · rw [if_neg fun hdone => hip hdone.2, if_neg hip, ← hrun]
    rfl

/-! ### The statements -/

/-- Settles O22: the forward scan's closed form, and what `matchFwd_eq_some` says of the partner it finds. -/
theorem forwardScanClosedForm : Obligations.ForwardScanClosedForm := by
  refine fun prog i hi => ⟨matchFwd_eq_some_iff hi, fun m h => ?_⟩
  obtain ⟨-, hbyte, -, hbefore⟩ := matchFwd_eq_some h
  exact ⟨hbyte, fun k _ => hbefore k⟩

/-- Settles O23: the backward scan's closed form, and what `matchBwd_eq_some` says of the partner it finds. -/
theorem backwardScanClosedForm : Obligations.BackwardScanClosedForm := by
  refine fun prog i hi => ⟨matchBwd_eq_some_iff hi.le, fun m h => ?_⟩
  obtain ⟨-, hbyte, -, hbefore⟩ := matchBwd_eq_some hi.le h
  exact ⟨hbyte, fun k hmk hki => hbefore k hmk hki.le⟩

/-- Settles O24: a scan that fails never had the counts cross, and one that succeeds stopped where they did. -/
theorem scansFailExactlyWhenUnbalanced : Obligations.ScansFailExactlyWhenUnbalanced := by
  refine fun prog i hi => ⟨⟨fun h k _ _ => closes_le_opens_of_matchFwd_eq_none h k, fun hle => ?_⟩,
    fun h k hk => opens_le_closes_of_matchBwd_eq_none hi.le hk h, fun hle => ?_⟩
  · refine Option.eq_none_iff_forall_ne_some.mpr fun m h => ?_
    obtain ⟨him, -, hcross, -⟩ := matchFwd_eq_some h
    have hm := hle m him (matchFwd_lt hi h)
    omega
  · refine Option.eq_none_iff_forall_ne_some.mpr fun m h => ?_
    obtain ⟨hmi, -, hcross, -⟩ := matchBwd_eq_some hi.le h
    have hm := hle m hmi
    omega

/-- Settles O25, by the counts between the two brackets. -/
theorem scansAgreeOnPartners : Obligations.ScansAgreeOnPartners :=
  fun _ _ _ => ⟨matchBwd_of_matchFwd, matchFwd_of_matchBwd⟩

/-- Settles O26: the bytes each scan reads are the same to it. -/
theorem scansAreCommentBlind : Obligations.ScansAreCommentBlind :=
  fun _ _ hsame i => ⟨scanFwd_congr (List.forall₂_drop (i + 1) hsame) (i + 1) 1,
    scanBwd_congr (List.forall₂_reverse_iff.mpr (List.forall₂_take i hsame)) 1⟩

/-- Settles O27: at the `[` found, the forward scan finds the same `]` again (R136). -/
theorem loopEndThenZeroTestLeavesTheLoop : Obligations.LoopEndThenZeroTestLeavesTheLoop := by
  intro s m hrun hptr hb hm hzero
  refine ⟨step_loope_of_partner hrun hb hm, ?_⟩
  obtain ⟨hip, -⟩ := List.getElem?_eq_some_iff.mp hb
  obtain ⟨-, hopen, -⟩ := matchBwd_eq_some hip.le hm
  have hback : matchFwd s.prog m = some s.ip := matchFwd_of_matchBwd hb hm
  have hstep : step (s.jump m) = .next (haltIfDone (s.jump (s.ip + 1))) :=
    step_loops_of_zero (s := s.jump m) hrun hptr hopen hzero hback
  rw [haltIfDone_of_running (s := s.jump (s.ip + 1)) hrun] at hstep
  exact hstep

/-- Settles O16: the three cases of `exec_loops_next`. -/
theorem loopsEntersSkipsOrFaults : Obligations.LoopsEntersSkipsOrFaults :=
  ⟨rfl, fun _ hptr =>
    ⟨fun hne => exec_loops_next.mpr ⟨hptr, .inl ⟨hne, rfl⟩⟩,
      fun hzero _ hm => exec_loops_of_zero hptr hzero hm,
      fun hzero hnone => exec_loops_next.mpr ⟨hptr, .inr (.inr ⟨hzero, hnone, rfl⟩)⟩⟩⟩

/-- Settles O17: the two cases of `exec_loope_next`. -/
theorem loopeReturnsToItsPartnerOrFaults : Obligations.LoopeReturnsToItsPartnerOrFaults :=
  ⟨rfl, fun _ => ⟨fun _ hm => exec_loope_of_partner hm, fun hnone => exec_loope_next.mpr (.inr ⟨hnone, rfl⟩)⟩⟩

end Sys2Proof.Machine
end

section
/-! PROOFS. Comment and no-op (`45_comment_noop.md`). The scan of `CMT` answers the index of the first newline byte
among the bytes it reads, or the index past them all; what `List.idxOf` is known to do is then read in the
program's indices. -/

namespace Sys2Proof.Machine

/-! ### The comment scan -/

/-- The comment scan passes the bytes before the first newline, or all of them where there is none (R140). -/
theorem skipLine_eq_add_idxOf (bytes : List Byte) (j : Nat) :
    skipLine bytes j = j + bytes.idxOf Config.newline := by
  induction bytes generalizing j with
  | nil => rfl
  | cons b rest ih =>
    rw [skipLine_cons, ih]
    by_cases hb : b = Config.newline
    · rw [if_pos hb, List.idxOf_cons_eq rest hb, Nat.add_zero]
    · rw [if_neg hb, List.idxOf_cons_ne rest hb]
      omega

/-- Within the program, the scan stops on a newline byte only (D4). -/
theorem getElem?_skipLine_drop {prog : List Byte} {a : Nat} (h : skipLine (prog.drop a) a < prog.length) :
    prog[skipLine (prog.drop a) a]? = some Config.newline := by
  rw [skipLine_eq_add_idxOf] at h ⊢
  have hfound : (prog.drop a).idxOf Config.newline < (prog.drop a).length := by
    rw [List.length_drop]
    omega
  rw [← List.getElem?_drop, List.getElem?_idxOf (List.idxOf_lt_length_iff.mp hfound)]

/-- The scan passes no newline byte (R140). -/
theorem getElem?_ne_newline_of_lt_skipLine_drop {prog : List Byte} {a k : Nat} (hak : a ≤ k)
    (hk : k < skipLine (prog.drop a) a) : prog[k]? ≠ some Config.newline := by
  intro hnewline
  obtain ⟨d, rfl⟩ := Nat.exists_eq_add_of_le hak
  rw [skipLine_eq_add_idxOf] at hk
  rw [← List.getElem?_drop] at hnewline
  have hmem : Config.newline ∈ (prog.drop a).take (d + 1) :=
    List.mem_of_getElem? ((List.getElem?_take_of_lt d.lt_succ_self).trans hnewline)
  have hfirst := (List.mem_take_iff_idxOf_lt (List.mem_of_getElem? hnewline)).mp hmem
  omega

/-! ### The statements -/

/-- Settles O18: `CMT` jumps to where the scan that starts just after the `#` stops. -/
theorem cmtSkipsToTheNextNewline : Obligations.CmtSkipsToTheNextNewline := by
  intro s hip
  refine ⟨skipLine (s.prog.drop (s.ip + 1)) (s.ip + 1), exec_cmt_next.mpr rfl, ?_, ?_, getElem?_skipLine_drop,
    fun _ => getElem?_ne_newline_of_lt_skipLine_drop⟩
  · rw [skipLine_eq_add_idxOf]
    omega
  · have hle := skipLine_le (s.prog.drop (s.ip + 1)) (s.ip + 1)
    rw [List.length_drop] at hle
    omega

/-- Settles O19: by O18 the comment ends at `PLEN`, since below it there would be a newline; the machine halts there. -/
theorem commentOnTheLastLineHalts : Obligations.CommentOnTheLastLineHalts := by
  intro s hrun (hb : s.prog[s.ip]? = some opCmt) hnone
  obtain ⟨hip, -⟩ := List.getElem?_eq_some_iff.mp hb
  obtain ⟨j, hcmt, hgt, hle, hnewline, -⟩ := cmtSkipsToTheNextNewline s hip
  have hend : j = s.prog.length := hle.eq_of_not_lt fun hlt => hnone j hgt (hnewline hlt)
  have hexec : exec (decode opCmt) s = .next (s.jump s.prog.length) := hend ▸ hcmt
  have hhalt : haltIfDone (s.jump s.prog.length) = (s.jump s.prog.length).setStatus .halted := if_pos ⟨hrun, rfl⟩
  rw [step_of_fetch hrun hb, hexec, haltTest_next, hhalt]
  rfl

/-- Settles O20: a byte that is none of the nine named ones is not in their list. -/
theorem nopOnlyAdvances : Obligations.NopOnlyAdvances := by
  refine ⟨fun b hinc hdec hleft hright hout hin hloops hloope hcmt => ?_, fun _ _ => exec_nop_next.mpr rfl⟩
  have hb : b ∉ namedBytes := by
    simp only [namedBytes, List.mem_cons, List.not_mem_nil, or_false, not_or]
    exact ⟨hinc, hdec, hleft, hright, hout, hin, hloops, hloope, hcmt⟩
  exact decode_of_not_mem_namedBytes hb

end Sys2Proof.Machine
end

section
/-! PROOFS. Exceptions (`60_exceptions.md`): which error an instruction raises is a function of the instruction and the
state, `raisedError`; `STATUS` after the instruction is read off it, and the halt test neither hides an error nor makes
one. -/

namespace Sys2Proof.Machine

/-! ### Decoding -/

/-- A byte decodes to a well-formed instruction exactly where it is that instruction's encoding (R61). -/
theorem decode_eq_iff {i : Instr} (hi : i.wellFormed = true) (b : Byte) : decode b = i ↔ b = encode i :=
  ⟨eq_encode_of_decode, fun h => h ▸ decode_encode hi⟩

/-! ### The codes of the errors -/

/-- A raised error has left `RUNNING` (R156). -/
theorem MachineError.status_ne_running (e : MachineError) : e.status ≠ .running := by
  cases e <;> exact nofun

/-- A raised error is no normal end (R151). -/
theorem MachineError.status_ne_halted (e : MachineError) : e.status ≠ .halted := by
  cases e <;> exact nofun

/-- `STATUS` tells which error was raised (R155). -/
theorem MachineError.status_injective : Function.Injective MachineError.status := by
  intro e e'
  cases e <;> cases e' <;> simp [MachineError.status]

/-- No step exists once an error is raised (R159), and the refusal names its code (log 7). -/
theorem step_raise (e : MachineError) (s : State) : step (raise e s) = .refused (.noStepEnabled e.status) :=
  step_of_ne_running e.status_ne_running

/-- The halt test neither hides an error nor makes one: it only turns `RUNNING` into `HALTED` (R84). -/
theorem haltIfDone_status_eq_error_iff (u : State) (e : MachineError) :
    (haltIfDone u).status = e.status ↔ u.status = e.status := by
  rw [haltIfDone_status]
  split
  next hdone =>
    obtain ⟨hrun, -⟩ := hdone
    rw [hrun]
    exact iff_of_false e.status_ne_halted.symm e.status_ne_running.symm
  next => rfl

/-- A machine that goes on or halts has raised no error. -/
theorem State.GoesOnOrHalts.status_ne_error {t : State} (h : t.GoesOnOrHalts) (e : MachineError) :
    t.status ≠ e.status := by
  obtain ⟨hst, -⟩ | ⟨hst, -⟩ := h
  · exact hst ▸ e.status_ne_running.symm
  · exact hst ▸ e.status_ne_halted.symm

/-! ### Which error an instruction raises -/

/-- The error an instruction raises in a state, where it raises one: `InputError` by an `IN` whose source fails (R153),
`MalformedProgramError` by a bracket whose scan finds nothing, `LOOPS` scanning only at a zero cell (R154). -/
def raisedError (i : Instr) (s : State) : Option MachineError :=
  match i with
  | .inp => if s.input.head? = some .fail then some .input else none
  | .loops =>
    if (s.tape.read s.ptr.toNat).toInt = 0 ∧ matchFwd s.prog s.ip = none then some .malformedProgram else none
  | .loope => if matchBwd s.prog s.ip = none then some .malformedProgram else none
  | .inc | .dec | .left | .right | .out | .cmt | .nop _ => none

theorem raisedError_eq_input_iff {i : Instr} {s : State} :
    raisedError i s = some .input ↔ i = .inp ∧ s.input.head? = some .fail := by
  cases i <;> simp [raisedError]

theorem raisedError_eq_malformedProgram_iff {i : Instr} {s : State} :
    raisedError i s = some .malformedProgram ↔
      (i = .loops ∧ (s.tape.read s.ptr.toNat).toInt = 0 ∧ matchFwd s.prog s.ip = none) ∨
      (i = .loope ∧ matchBwd s.prog s.ip = none) := by
  cases i <;> simp [raisedError]

/-- An instruction writes to `STATUS` the code of the error it raises, and nothing where it raises none (R156). -/
theorem exec_status {i : Instr} {s u : State} (h : exec i s = .next u) :
    u.status = (raisedError i s).elim s.status MachineError.status := by
  cases i with
  | inc =>
    obtain ⟨-, rfl⟩ := exec_inc_next.mp h
    rfl
  | dec =>
    obtain ⟨-, rfl⟩ := exec_dec_next.mp h
    rfl
  | out =>
    obtain ⟨-, rfl⟩ := exec_out_next.mp h
    rfl
  | inp =>
    obtain ⟨hin, rfl⟩ | ⟨rest, hin, rfl⟩ | ⟨c, rest, hin, -, rfl⟩ := exec_inp_next.mp h <;>
      simp [raisedError, hin]
  | loops =>
    obtain ⟨-, ⟨hne, rfl⟩ | ⟨-, m, hm, rfl⟩ | ⟨hzero, hm, rfl⟩⟩ := exec_loops_next.mp h
    · simp [raisedError, hne]
    · simp [raisedError, hm]
    · simp [raisedError, hzero, hm]
  | loope =>
    obtain ⟨m, hm, rfl⟩ | ⟨hm, rfl⟩ := exec_loope_next.mp h <;> simp [raisedError, hm]
  | left | right | cmt | nop =>
    obtain rfl := Host.Outcome.next.inj h
    rfl

/-- A step ends in an error exactly where its instruction raises that error: it began in `RUNNING`, which is the code of
none (R81). -/
theorem step_status_eq_error_iff {s t : State} {b : Byte} (hb : s.prog[s.ip]? = some b) (h : step s = .next t)
    (e : MachineError) : t.status = e.status ↔ raisedError (decode b) s = some e := by
  obtain ⟨hrun, b', u, hb', hu, rfl⟩ := step_next h
  obtain rfl : b = b' := Option.some.inj (hb.symm.trans hb')
  rw [haltIfDone_status_eq_error_iff, exec_status hu, hrun]
  cases raisedError (decode b) s with
  | none => exact iff_of_false e.status_ne_running.symm nofun
  | some e' => exact MachineError.status_injective.eq_iff.trans Option.some_inj.symm

/-! ### Requests that are not accepted -/

/-- A `run` request in any status but `READY` is refused (R183). -/
theorem runRequest_of_ne_ready {s : State} (h : s.status ≠ .ready) (as : List Answer) :
    runRequest as s = .refused (.runNotAccepted s.status) :=
  if_neg h

/-! ### The statements -/

/-- Settles O29: the two instructions that raise `MalformedProgramError`, and their bytes. -/
theorem malformedErrorExactlyWhenAScanFails : Obligations.MalformedErrorExactlyWhenAScanFails := by
  intro s t b hb h
  have hraised := step_status_eq_error_iff hb h .malformedProgram
  rw [raisedError_eq_malformedProgram_iff, decode_eq_iff rfl, decode_eq_iff rfl] at hraised
  exact hraised

/-- Settles O30: the one instruction that raises `InputError`, and its byte. -/
theorem inputErrorExactlyWhenTheSourceFails : Obligations.InputErrorExactlyWhenTheSourceFails := by
  intro s t b hb h
  have hraised := step_status_eq_error_iff hb h .input
  rw [raisedError_eq_input_iff, decode_eq_iff rfl] at hraised
  exact hraised

/-- Settles O31: of the outcomes of a step the two errors are `raise` at the state before it, with `IP` and `Prog` as
they were, and neither is `EmptyProgramError`. -/
theorem errorsArePrecise : Obligations.ErrorsArePrecise := by
  intro s t h
  obtain hon | ⟨rfl, hbyte⟩ | ⟨rfl, hbyte⟩ := step_outcome h
  · exact ⟨fun hst => absurd hst (hon.status_ne_error .input),
      fun hst => absurd hst (hon.status_ne_error .malformedProgram), hon.status_ne_error .emptyProgram⟩
  · exact ⟨fun _ => ⟨rfl, hbyte⟩, nofun, nofun⟩
  · exact ⟨nofun, fun _ => ⟨rfl, hbyte⟩, nofun⟩

/-- Settles O28: the codes of the three errors, and the refusal that follows any of them. -/
theorem raiseWritesOnlyStatus : Obligations.RaiseWritesOnlyStatus :=
  ⟨fun _ => ⟨rfl, rfl, rfl⟩, fun e s => ⟨_, step_raise e s⟩⟩

/-- Settles O51: `create` of no bytes raises its error on a fresh machine, and any bytes leave that machine `READY`. -/
theorem createOfNothingFails : Obligations.CreateOfNothingFails :=
  ⟨rfl, rfl, rfl, ⟨_, step_raise .emptyProgram _⟩, fun as => ⟨_, runRequest_of_ne_ready (by decide) as⟩,
    fun _ hne => congrArg State.status (create_of_ne_nil hne)⟩

end Sys2Proof.Machine
end

section
/-! PROOFS. Reset and start (`70_reset_and_hazards.md`): what the host's requests give and keep, the model's own way of
placing a table word, and the narrowing of the notation section. -/

namespace Sys2Proof.Machine

/-! ### A state with the invariant has a program, or has none and says so -/

/-- Of the states with the invariant, only `FAULT_EMPTY` has no program; in any other `PLEN` is at least 1 (R152). -/
theorem State.StatusInv.prog_length_pos {s : State} (h : s.StatusInv) (hne : s.status ≠ .faultEmpty) :
    0 < s.prog.length := by
  obtain ⟨-, -, -, hempty, -, -⟩ := h
  exact List.length_pos_iff.mpr fun hnil => hne (hempty.mpr hnil)

/-! ### `create` -/

/-- A new machine has the invariant: at no bytes it is the reset state, and at any others it is `READY` with `PTR`,
`IP`, the tape and the output at their first values (R180). -/
theorem create_inv (bytes : List Byte) : (create bytes).Inv := by
  cases bytes with
  | nil => exact resetHasInvariant.2
  | cons b bytes =>
    rw [create_of_ne_nil (List.cons_ne_nil b bytes)]
    have hptr : (0 : Ptr).toNat < Config.tapeLen := by decide
    exact ⟨rfl, hptr, Nat.zero_le _, fun _ => ⟨rfl, rfl, rfl, rfl⟩, nofun, nofun, ⟨nofun, nofun⟩, nofun, nofun⟩

/-! ### `run` -/

/-- A `run` request in `READY` is accepted, and this is the machine it starts (R182). -/
theorem runRequest_of_ready {s : State} (h : s.status = .ready) (as : List Answer) :
    runRequest as s = .next { s with input := as, ip := 0, status := .running } :=
  runRequest_next.mpr ⟨h, rfl⟩

/-- An accepted `run` keeps the invariant: a `READY` machine has at least one byte, so index 0 is below `PLEN`
(R182). -/
theorem runRequest_inv {as : List Answer} {s t : State} (hs : s.Inv) (h : runRequest as s = .next t) : t.Inv := by
  obtain ⟨hready, rfl⟩ := runRequest_next.mp h
  obtain ⟨hwf, hptr, -, hst⟩ := hs
  have hpos : 0 < s.prog.length := hst.prog_length_pos (hready ▸ nofun)
  exact ⟨hwf, hptr, Nat.zero_le _, nofun, fun _ => hpos, nofun,
    ⟨nofun, fun hnil => absurd hnil (List.ne_nil_of_length_pos hpos)⟩, nofun, nofun⟩

/-! ### The answers of the source -/

/-- The invariant does not speak of the answers, so further ones keep it (R186). -/
theorem supply_inv (as : List Answer) {s : State} (hs : s.Inv) : (supply as s).Inv := hs

/-! ### Placing a table word -/

/-- An 8-bit table word is its byte: no bit is dropped. -/
theorem ofNat_toNat_mod (b : Byte) : BitVec.ofNat 8 (b.toNat % 2 ^ 8) = b := by
  rw [Nat.mod_eq_of_lt b.isLt, BitVec.ofNat_toNat, BitVec.setWidth_eq]

/-- A placed 8-bit word is the byte the next fetch reads (R82). -/
theorem withFetchWord_fetches (s : State) (b : Byte) :
    (s.withFetchWord 8 b.toNat).prog[(s.withFetchWord 8 b.toNat).ip]? = some b := by
  rw [State.withFetchWord_prog, State.withFetchWord_ip, ofNat_toNat_mod, placeByte_getElem?]

/-- The next step after a word is placed performs that word's instruction (R80). -/
theorem step_withFetchWord (s : State) (b : Byte) :
    step (s.withFetchWord 8 b.toNat) = haltTest (exec (decode b) (s.withFetchWord 8 b.toNat)) :=
  step_of_fetch (State.withFetchWord_status s 8 b.toNat) (withFetchWord_fetches s b)

/-- At reset, placing a word gives the running machine whose program is that one byte. -/
theorem reset_withFetchWord (b : Byte) :
    State.reset.withFetchWord 8 b.toNat = { State.reset with prog := [b], status := .running } := by
  rw [State.withFetchWord, ofNat_toNat_mod]
  rfl

/-- `create` of one byte and `run` with no answers yet give the same machine (R180, R182; log 6). -/
theorem runRequest_create_singleton (b : Byte) :
    runRequest [] (create [b]) = .next (State.reset.withFetchWord 8 b.toNat) := by
  rw [create_of_ne_nil (List.cons_ne_nil b []), runRequest_of_ready rfl, reset_withFetchWord]
  rfl

/-! ### The statements -/

/-- Settles O34: request by request. -/
theorem hostRequestsKeepInvariant : Obligations.HostRequestsKeepInvariant :=
  ⟨create_inv, fun _ _ _ => runRequest_inv, fun as _ => supply_inv as⟩

/-- Settles O52: `READY` is the one status in which the request is accepted. -/
theorem runStartsOnlyAReadyMachine : Obligations.RunStartsOnlyAReadyMachine :=
  fun as _ => ⟨fun h => runRequest_of_ready h as, fun h => runRequest_of_ne_ready h as⟩

/-- Settles O7: at reset the placed word is a one-byte program that was created and run; from any state it is the byte
the next step fetches, and only `Prog` and `STATUS` have changed. -/
theorem fetchWordRunsItsInstruction : Obligations.FetchWordRunsItsInstruction :=
  fun s b => ⟨runRequest_create_singleton b, step_withFetchWord s b, rfl, rfl, rfl, rfl, rfl⟩

/-- Settles O44: the value of a narrowed integer. -/
theorem narrowingFormula : Obligations.NarrowingFormula := toInt_s16

end Sys2Proof.Machine
end
